-- ==== Sys2Proof/Word.lean ====
section
/-! DEFINITION. The word types of the CORE block (00_scope.md R8, R14): every register and memory value is an unsigned
bit vector of its stated width; register numbers are plain numbers below 16. -/

namespace Sys2Proof

/-- 8 bits: a general register, a timer, a byte of memory (R8, R20, R60). -/
abbrev Byte := BitVec 8

/-- 16 bits: PC, I, a call-stack entry, an instruction word (R8, R23, R27, R29, R90). -/
abbrev Word := BitVec 16

/-- 12 bits: the address field `nnn` (R15, R91). -/
abbrev Addr := BitVec 12

/-- 4 bits: one nibble of an instruction word, and DRW's row count `n` (R15, R91). -/
abbrev Nibble := BitVec 4

/-- The number of a general register, `V[0x0]` .. `V[0xF]` (R20, R93). -/
abbrev RegIdx := Fin 16

/-- The number of the flag register `VF` (R16, R22). -/
def VF : RegIdx := 15

end Sys2Proof
end

