-- ==== Sys2Proof/Syntax.lean ====
section
/-! DEFINITION. The 35 operations of the instruction set (30_encoding.md R107), one constructor per row of
spec/opcode_table.json, in the table's order. -/

namespace Sys2Proof

/-- One instruction with its operands. `x` and `y` are register numbers, `kk` a byte, `nnn` an address, `n` DRW's row
count (R91, R93). The ignored low nibble of 5xy_ and 9xy_ is no operand (R96); the `y` of SHR and SHL is one, because
`SHIFT_VARIANT` may read it (R13). -/
inductive Instr where
  /-- `SYS nnn`, 0nnn (R130) -/
  | sys (nnn : Addr)
  /-- `CLS`, 00E0 (R190) -/
  | cls
  /-- `RET`, 00EE (R131) -/
  | ret
  /-- `JP nnn`, 1nnn (R132) -/
  | jp (nnn : Addr)
  /-- `CALL nnn`, 2nnn (R133) -/
  | call (nnn : Addr)
  /-- `SE Vx, kk`, 3xkk (R134) -/
  | seByte (x : RegIdx) (kk : Byte)
  /-- `SNE Vx, kk`, 4xkk (R135) -/
  | sneByte (x : RegIdx) (kk : Byte)
  /-- `SE Vx, Vy`, 5xy_ (R136) -/
  | seReg (x y : RegIdx)
  /-- `LD Vx, kk`, 6xkk (R152) -/
  | ldByte (x : RegIdx) (kk : Byte)
  /-- `ADD Vx, kk`, 7xkk (R153) -/
  | addByte (x : RegIdx) (kk : Byte)
  /-- `LD Vx, Vy`, 8xy0 (R154) -/
  | ldReg (x y : RegIdx)
  /-- `OR Vx, Vy`, 8xy1 (R155) -/
  | orReg (x y : RegIdx)
  /-- `AND Vx, Vy`, 8xy2 (R156) -/
  | andReg (x y : RegIdx)
  /-- `XOR Vx, Vy`, 8xy3 (R157) -/
  | xorReg (x y : RegIdx)
  /-- `ADD Vx, Vy`, 8xy4 (R158) -/
  | addReg (x y : RegIdx)
  /-- `SUB Vx, Vy`, 8xy5 (R159) -/
  | subReg (x y : RegIdx)
  /-- `SHR Vx`, 8xy6 (R160) -/
  | shr (x y : RegIdx)
  /-- `SUBN Vx, Vy`, 8xy7 (R161) -/
  | subnReg (x y : RegIdx)
  /-- `SHL Vx`, 8xyE (R162) -/
  | shl (x y : RegIdx)
  /-- `SNE Vx, Vy`, 9xy_ (R137) -/
  | sneReg (x y : RegIdx)
  /-- `LD I, nnn`, Annn (R170) -/
  | ldI (nnn : Addr)
  /-- `JP V0, nnn`, Bnnn (R138) -/
  | jpV0 (nnn : Addr)
  /-- `RND Vx, kk`, Cxkk (R163) -/
  | rnd (x : RegIdx) (kk : Byte)
  /-- `DRW Vx, Vy, n`, Dxyn (R191) -/
  | drw (x y : RegIdx) (n : Nibble)
  /-- `SKP Vx`, Ex9E (R211) -/
  | skp (x : RegIdx)
  /-- `SKNP Vx`, ExA1 (R212) -/
  | sknp (x : RegIdx)
  /-- `LD Vx, DT`, Fx07 (R215) -/
  | ldVxDt (x : RegIdx)
  /-- `LD Vx, K`, Fx0A (R213, R214) -/
  | ldVxK (x : RegIdx)
  /-- `LD DT, Vx`, Fx15 (R216) -/
  | ldDtVx (x : RegIdx)
  /-- `LD ST, Vx`, Fx18 (R217) -/
  | ldStVx (x : RegIdx)
  /-- `ADD I, Vx`, Fx1E (R171) -/
  | addI (x : RegIdx)
  /-- `LD F, Vx`, Fx29 (R172) -/
  | ldF (x : RegIdx)
  /-- `LD B, Vx`, Fx33 (R173) -/
  | ldB (x : RegIdx)
  /-- `LD [I], Vx`, Fx55 (R174) -/
  | storeRegs (x : RegIdx)
  /-- `LD Vx, [I]`, Fx65 (R175) -/
  | loadRegs (x : RegIdx)
  deriving DecidableEq, Repr

end Sys2Proof
end

