-- ==== Sys2Proof/Decode.lean ====
section
/-! DEFINITION. The decoder, total on every word and every list of bytes, and the encoder (30_encoding.md). The decoder
reads and writes no state (R100). -/

namespace Sys2Proof

/-! ### Fields of a word (00_scope.md R15; 30_encoding.md R91) -/

/-- `op = w[15:12]` -/
def opField (w : Word) : Nibble := w.extractLsb 15 12
/-- `x = w[11:8]` -/
def xField (w : Word) : RegIdx := (w.extractLsb 11 8).toFin
/-- `y = w[7:4]` -/
def yField (w : Word) : RegIdx := (w.extractLsb 7 4).toFin
/-- `n = w[3:0]` -/
def nField (w : Word) : Nibble := w.extractLsb 3 0
/-- `kk = w[7:0]` -/
def kkField (w : Word) : Byte := w.extractLsb 7 0
/-- `nnn = w[11:0]` -/
def nnnField (w : Word) : Addr := w.extractLsb 11 0

/-! ### The decoder (R94 to R100) -/

/-- Why a word or a list of bytes is no instruction. -/
inductive DecodeReject where
  /-- One of the 9808 words that match no operation (R99). Not a trap: the machine raises an event (R232). -/
  | unknownInstruction (w : Word)
  /-- Fewer than the two bytes of an instruction word (R90). No fetch of the machine gives this. -/
  | truncated
  deriving DecidableEq, Repr

/-- `op = 0x0` is keyed on all of `nnn` (R95). -/
def decodeOp0 (w : Word) : Instr :=
  if nnnField w = 0x0E0#12 then .cls
  else if nnnField w = 0x0EE#12 then .ret
  else .sys (nnnField w)

/-- `op = 0x8` is keyed on `n` (R97). -/
def decodeOp8 (w : Word) : Except DecodeReject Instr :=
  match nField w with
  | 0x0#4 => .ok (.ldReg (xField w) (yField w))
  | 0x1#4 => .ok (.orReg (xField w) (yField w))
  | 0x2#4 => .ok (.andReg (xField w) (yField w))
  | 0x3#4 => .ok (.xorReg (xField w) (yField w))
  | 0x4#4 => .ok (.addReg (xField w) (yField w))
  | 0x5#4 => .ok (.subReg (xField w) (yField w))
  | 0x6#4 => .ok (.shr (xField w) (yField w))
  | 0x7#4 => .ok (.subnReg (xField w) (yField w))
  | 0xE#4 => .ok (.shl (xField w) (yField w))
  | _ => .error (.unknownInstruction w)

/-- `op = 0xE` is keyed on `kk` (R98). -/
def decodeOpE (w : Word) : Except DecodeReject Instr :=
  match kkField w with
  | 0x9E#8 => .ok (.skp (xField w))
  | 0xA1#8 => .ok (.sknp (xField w))
  | _ => .error (.unknownInstruction w)

/-- `op = 0xF` is keyed on `kk` (R98). -/
def decodeOpF (w : Word) : Except DecodeReject Instr :=
  match kkField w with
  | 0x07#8 => .ok (.ldVxDt (xField w))
  | 0x0A#8 => .ok (.ldVxK (xField w))
  | 0x15#8 => .ok (.ldDtVx (xField w))
  | 0x18#8 => .ok (.ldStVx (xField w))
  | 0x1E#8 => .ok (.addI (xField w))
  | 0x29#8 => .ok (.ldF (xField w))
  | 0x33#8 => .ok (.ldB (xField w))
  | 0x55#8 => .ok (.storeRegs (xField w))
  | 0x65#8 => .ok (.loadRegs (xField w))
  | _ => .error (.unknownInstruction w)

/-- `Decode(w)` (R94, R100): the primary key is `op`; 0x0, 0x8, 0xE and 0xF take a second key. The low nibble of op 5
and op 9 is ignored (R96). The last arm is op 0xF, the one value the arms before it leave. -/
def decode (w : Word) : Except DecodeReject Instr :=
  match opField w with
  | 0x0#4 => .ok (decodeOp0 w)
  | 0x1#4 => .ok (.jp (nnnField w))
  | 0x2#4 => .ok (.call (nnnField w))
  | 0x3#4 => .ok (.seByte (xField w) (kkField w))
  | 0x4#4 => .ok (.sneByte (xField w) (kkField w))
  | 0x5#4 => .ok (.seReg (xField w) (yField w))
  | 0x6#4 => .ok (.ldByte (xField w) (kkField w))
  | 0x7#4 => .ok (.addByte (xField w) (kkField w))
  | 0x8#4 => decodeOp8 w
  | 0x9#4 => .ok (.sneReg (xField w) (yField w))
  | 0xA#4 => .ok (.ldI (nnnField w))
  | 0xB#4 => .ok (.jpV0 (nnnField w))
  | 0xC#4 => .ok (.rnd (xField w) (kkField w))
  | 0xD#4 => .ok (.drw (xField w) (yField w) (nField w))
  | 0xE#4 => decodeOpE w
  | _ => decodeOpF w

/-- The instruction word of two bytes, high byte first (20_memory.md R70; 30_encoding.md R101, R102). -/
def wordOfBytes (hi lo : Byte) : Word := hi ++ lo

/-- The high byte of a word, the one at the lower address (R70). -/
def highByte (w : Word) : Byte := w.extractLsb 15 8

/-- The low byte of a word (R70). -/
def lowByte (w : Word) : Byte := w.extractLsb 7 0

/-- Decoding from bytes: the instruction at the front, and the bytes after it. -/
def decodeBytes : List Byte → Except DecodeReject (Instr × List Byte)
  | hi :: lo :: rest =>
    match decode (wordOfBytes hi lo) with
    | .ok i => .ok (i, rest)
    | .error e => .error e
  | [_] => .error .truncated
  | [] => .error .truncated

/-! ### The encoder (R92, R107) -/

/-- Format NNN: `op ‖ nnn`. -/
def packNNN (op : Nibble) (nnn : Addr) : Word := op ++ nnn

/-- Formats XKK and XS: `op ‖ x ‖ kk`. -/
def packXKK (op : Nibble) (x : RegIdx) (kk : Byte) : Word := op ++ (BitVec.ofFin x : Nibble) ++ kk

/-- Formats XY, XYS and XYN: `op ‖ x ‖ y ‖ n`. -/
def packXYN (op : Nibble) (x y : RegIdx) (n : Nibble) : Word :=
  op ++ (BitVec.ofFin x : Nibble) ++ (BitVec.ofFin y : Nibble) ++ n

/-- The word of an instruction (R107). The ignored low nibble of 5xy_ and 9xy_ is written 0. -/
def encode : Instr → Word
  | .sys nnn => packNNN 0x0 nnn
  | .cls => 0x00E0
  | .ret => 0x00EE
  | .jp nnn => packNNN 0x1 nnn
  | .call nnn => packNNN 0x2 nnn
  | .seByte x kk => packXKK 0x3 x kk
  | .sneByte x kk => packXKK 0x4 x kk
  | .seReg x y => packXYN 0x5 x y 0x0
  | .ldByte x kk => packXKK 0x6 x kk
  | .addByte x kk => packXKK 0x7 x kk
  | .ldReg x y => packXYN 0x8 x y 0x0
  | .orReg x y => packXYN 0x8 x y 0x1
  | .andReg x y => packXYN 0x8 x y 0x2
  | .xorReg x y => packXYN 0x8 x y 0x3
  | .addReg x y => packXYN 0x8 x y 0x4
  | .subReg x y => packXYN 0x8 x y 0x5
  | .shr x y => packXYN 0x8 x y 0x6
  | .subnReg x y => packXYN 0x8 x y 0x7
  | .shl x y => packXYN 0x8 x y 0xE
  | .sneReg x y => packXYN 0x9 x y 0x0
  | .ldI nnn => packNNN 0xA nnn
  | .jpV0 nnn => packNNN 0xB nnn
  | .rnd x kk => packXKK 0xC x kk
  | .drw x y n => packXYN 0xD x y n
  | .skp x => packXKK 0xE x 0x9E
  | .sknp x => packXKK 0xE x 0xA1
  | .ldVxDt x => packXKK 0xF x 0x07
  | .ldVxK x => packXKK 0xF x 0x0A
  | .ldDtVx x => packXKK 0xF x 0x15
  | .ldStVx x => packXKK 0xF x 0x18
  | .addI x => packXKK 0xF x 0x1E
  | .ldF x => packXKK 0xF x 0x29
  | .ldB x => packXKK 0xF x 0x33
  | .storeRegs x => packXKK 0xF x 0x55
  | .loadRegs x => packXKK 0xF x 0x65

/-- The bytes of an instruction in memory order, high byte first (R70). -/
def encodeBytes (i : Instr) : List Byte := [highByte (encode i), lowByte (encode i)]

/-! ### The opcode table's numbering -/

/-- The 16-bit word of an instruction whose lowest `nbits` bits are `w`'s and whose other bits are 0. -/
def tableWord (nbits w : Nat) : Word := BitVec.ofNat 16 (w % 2 ^ nbits)

/-- The instruction the decoder reads from a row's word (every row has one 16-bit word, so bit 0 is the word's own). -/
def decodeTableWord (nbits w : Nat) : Option Instr :=
  match decodeBytes [highByte (tableWord nbits w), lowByte (tableWord nbits w)] with
  | .ok (i, _) => some i
  | .error _ => none

/-! ### Assembler text (R105, R107) -/

/-- A hexadecimal digit. -/
def hexDigit (d : Nibble) : String :=
  ["0", "1", "2", "3", "4", "5", "6", "7", "8", "9", "A", "B", "C", "D", "E", "F"].getD d.toNat ""

/-- A register's name, V0..V9 and VA..VF (R20). -/
def regText (x : RegIdx) : String := "V" ++ hexDigit (BitVec.ofFin x)

/-- A row count, in decimal as the document writes it. -/
def nText (n : Nibble) : String :=
  ["0", "1", "2", "3", "4", "5", "6", "7", "8", "9", "10", "11", "12", "13", "14", "15"].getD n.toNat ""

/-- A byte as `0x..` -/
def kkText (kk : Byte) : String := "0x" ++ hexDigit (kk.extractLsb 7 4) ++ hexDigit (kk.extractLsb 3 0)

/-- An address as `0x...` -/
def nnnText (nnn : Addr) : String :=
  "0x" ++ hexDigit (nnn.extractLsb 11 8) ++ hexDigit (nnn.extractLsb 7 4) ++ hexDigit (nnn.extractLsb 3 0)

/-- The canonical assembler text of an instruction: the mnemonic, one space, operands separated by `, `, bytes and
addresses in hexadecimal and DRW's row count in decimal (R105; D28, log entry 33). SHR and SHL are written with both registers, the second spelling of R107, since
they keep both. -/
def Instr.text : Instr → String
  | .sys nnn => "SYS " ++ nnnText nnn
  | .cls => "CLS"
  | .ret => "RET"
  | .jp nnn => "JP " ++ nnnText nnn
  | .call nnn => "CALL " ++ nnnText nnn
  | .seByte x kk => "SE " ++ regText x ++ ", " ++ kkText kk
  | .sneByte x kk => "SNE " ++ regText x ++ ", " ++ kkText kk
  | .seReg x y => "SE " ++ regText x ++ ", " ++ regText y
  | .ldByte x kk => "LD " ++ regText x ++ ", " ++ kkText kk
  | .addByte x kk => "ADD " ++ regText x ++ ", " ++ kkText kk
  | .ldReg x y => "LD " ++ regText x ++ ", " ++ regText y
  | .orReg x y => "OR " ++ regText x ++ ", " ++ regText y
  | .andReg x y => "AND " ++ regText x ++ ", " ++ regText y
  | .xorReg x y => "XOR " ++ regText x ++ ", " ++ regText y
  | .addReg x y => "ADD " ++ regText x ++ ", " ++ regText y
  | .subReg x y => "SUB " ++ regText x ++ ", " ++ regText y
  | .shr x y => "SHR " ++ regText x ++ ", " ++ regText y
  | .subnReg x y => "SUBN " ++ regText x ++ ", " ++ regText y
  | .shl x y => "SHL " ++ regText x ++ ", " ++ regText y
  | .sneReg x y => "SNE " ++ regText x ++ ", " ++ regText y
  | .ldI nnn => "LD I, " ++ nnnText nnn
  | .jpV0 nnn => "JP V0, " ++ nnnText nnn
  | .rnd x kk => "RND " ++ regText x ++ ", " ++ kkText kk
  | .drw x y n => "DRW " ++ regText x ++ ", " ++ regText y ++ ", " ++ nText n
  | .skp x => "SKP " ++ regText x
  | .sknp x => "SKNP " ++ regText x
  | .ldVxDt x => "LD " ++ regText x ++ ", DT"
  | .ldVxK x => "LD " ++ regText x ++ ", K"
  | .ldDtVx x => "LD DT, " ++ regText x
  | .ldStVx x => "LD ST, " ++ regText x
  | .addI x => "ADD I, " ++ regText x
  | .ldF x => "LD F, " ++ regText x
  | .ldB x => "LD B, " ++ regText x
  | .storeRegs x => "LD [I], " ++ regText x
  | .loadRegs x => "LD " ++ regText x ++ ", [I]"

/-- A listing's line: the word as four hexadecimal digits, then the instruction (R105). -/
def listingLine (w : Word) (i : Instr) : String :=
  hexDigit (opField w) ++ hexDigit (w.extractLsb 11 8) ++ hexDigit (w.extractLsb 7 4) ++ hexDigit (w.extractLsb 3 0) ++
    "  " ++ i.text

end Sys2Proof
end

