-- ==== Sys2Proof/Config.lean ====
section
/-! DEFINITION. The parameters of the machine (00_scope.md section 3) and the values the spec leaves free. -/

namespace Sys2Proof

/-- `SHIFT_VARIANT`: how SHR and SHL treat the `y` field (00_scope.md R13; 93_implementation_defined.md U2). -/
inductive ShiftVariant where
  | ignoreVy
  | fromVy
  deriving DecidableEq, Repr

/-- What is fixed for one machine: `CPU_FREQ_HZ` (R9) and `SHIFT_VARIANT` (R13). `TIMER_PERIOD` is computed from the
first (R10). The third parameter, `FONT` (R11), is read by Reset only and is an argument of `State.construct`. -/
structure Config where
  cpuFreqHz    : Nat
  shiftVariant : ShiftVariant
  deriving DecidableEq, Repr

/-- `CPU_FREQ_HZ` at reset, less one. The spec gives no value and forbids assuming one (R9, N20), so nothing is known of
it but that `CPU_FREQ_HZ` is positive. Log entry 3. -/
opaque Config.openFreqLessOne : Nat

/-- The machine right after reset: an open frequency, and the default `SHIFT_VARIANT` (R9, R13). -/
def Config.atReset : Config :=
  { cpuFreqHz := Config.openFreqLessOne + 1, shiftVariant := .ignoreVy }

/-- The keys down in the n-th input snapshot, where the host's list gives none: free (10_state.md R42). Log entry 1. -/
opaque Config.freeKeyDown : Nat → BitVec 16

/-- The last-pressed key value of the n-th input snapshot, where the host's list gives none: free (R42, N26). -/
opaque Config.freeKeyLast : Nat → Nat

/-- The random byte of the n-th input snapshot, where the host's list gives none: free, under no law (R42, D24, U3). -/
opaque Config.freeRnd : Nat → Byte

end Sys2Proof
end

