-- ==== Sys2Proof/Machine/State.lean ====
section
/-! DEFINITION. The state of the CORE block as plain data (10_state.md R46), the reasons a step could stop, and the
state right after reset (70_reset_and_hazards.md R271). -/

namespace Sys2Proof.Machine

/-- Memory: the bytes of `mem[0x000]` .. `mem[0xFFF]` that differ from the reset contents, as (address, byte) pairs in
rising order of address (20_memory.md R60; the canonical form is `Memory.wf`, in Ops.lean). -/
abbrev Memory := List Host.Cell

/-- The framebuffer `fb[px][py]`, 64 columns of 32 one-bit pixels, true = lit (10_state.md R37). -/
abbrev Framebuffer := Vector (Vector Bool 32) 64

/-- The direction of an out-of-range access (R44, R231). -/
inductive Dir where
  | read
  | write
  deriving DecidableEq, Repr

/-- An output event of a step (10_state.md R44; 60_exceptions.md R231, R232, R243, R245). -/
inductive Event where
  /-- An access at an address above 0xFFF (R231). The address is a number: an instruction's is below 0x10000 (R68), a ROM
  load's is not wrapped (R273). -/
  | outOfRange (addr : Nat) (dir : Dir)
  /-- A word that matches no operation was executed (R232). -/
  | unknownInstruction (w : Word)
  /-- The framebuffer is presented (R243). -/
  | redraw (bitmap : Framebuffer)
  /-- The tone starts, or is started again (R245). -/
  | toneStart
  /-- The tone stops (R245). -/
  | toneStop
  deriving DecidableEq, Repr

/-- The inputs of one step, one consistent snapshot (10_state.md R42, R43). The spec gives `key_last` no width (N26), so
it is a number; only `key_last & 0xF` is used. -/
structure Input where
  keyDown : BitVec 16
  keyLast : Nat
  rnd     : Byte
  deriving DecidableEq, Repr

/-- The state of the machine. The fields from `v` to `waitKey` are the record of 10_state.md R46. `config` holds the
parameters (log entry 3). `inputs`, `draws` and `events` are the model's own: the host's coming input snapshots, the
number of snapshots used, and the output events so far (log entries 1 and 2). -/
structure State where
  /-- `V[0x0]` .. `V[0xF]` (R20) -/
  v         : Vector Byte 16
  /-- `I` (R27) -/
  i         : Word
  /-- `PC` (R23) -/
  pc        : Word
  /-- `SP` (R28) -/
  sp        : Byte
  /-- `stack[0]` .. `stack[15]` (R29) -/
  stack     : Vector Word 16
  /-- `DT` (R33) -/
  dt        : Byte
  /-- `ST` (R34) -/
  st        : Byte
  /-- `mem[0x000]` .. `mem[0xFFF]` (R60) -/
  mem       : Memory
  /-- `fb[px][py]` (R37) -/
  fb        : Framebuffer
  /-- `dirty` (R38) -/
  dirty     : Bool
  /-- `tick_count`: ticks completed since the last 60 Hz event (R39) -/
  tickCount : Nat
  /-- `wait_key`: the destination register of a pending `LD Vx, K` (R40) -/
  waitKey   : Option RegIdx
  /-- `CPU_FREQ_HZ` and `SHIFT_VARIANT` (R9, R13); no step writes it -/
  config    : Config
  /-- the host's input snapshots for the coming steps, oldest first (R42) -/
  inputs    : List Input
  /-- how many input snapshots have been used -/
  draws     : Nat
  /-- the output events emitted so far, oldest first (R44) -/
  events    : List Event
  deriving DecidableEq, Repr

/-- The ways the machine can stop with a fault: there is none. "There are no traps" and "No error is fatal"
(60_exceptions.md R230): both error kinds are events, and the machine goes on (R231, R232). Log entry 31. -/
inductive Fault where
  deriving DecidableEq, Repr

/-- The ways the model can decline an instruction. -/
inductive Refusal where
  /-- Raised by an arm of exec that has no meaning yet: no arm is left that raises it. Safe: nothing is claimed of the
  instruction then. -/
  | notModelled (mnemonic : String)
  deriving DecidableEq, Repr

/-- What an instruction's meaning answers. -/
abbrev Result := Host.Outcome State Fault Refusal

/-- The machine right after reset (R271; the reset column of R46), with `FONT` at its default, an open `CPU_FREQ_HZ` and
the default `SHIFT_VARIANT`. The memory lists nothing: it is the reset contents. -/
def State.reset : State where
  v         := Vector.replicate 16 0
  i         := 0
  pc        := 0x200
  sp        := 0
  stack     := Vector.replicate 16 0
  dt        := 0
  st        := 0
  mem       := []
  fb        := Vector.replicate 64 (Vector.replicate 32 false)
  dirty     := false
  tickCount := 0
  waitKey   := none
  config    := Config.atReset
  inputs    := []
  draws     := 0
  events    := []

end Sys2Proof.Machine
end

