-- ==== Sys2Proof/Machine/Ops.lean ====
section
/-! DEFINITION. The named operations over memory, registers, stack, display, inputs and timers that the instruction
meanings and the step share. -/

namespace Sys2Proof.Machine

/-! ### The font and the reset contents of memory -/

/-- Glyphs 0 to 3 of the default `FONT` (20_memory.md R63). -/
def font0to3 : List Byte :=
  [0xF0, 0x90, 0x90, 0x90, 0xF0,
   0x20, 0x60, 0x20, 0x20, 0x70,
   0xF0, 0x10, 0xF0, 0x80, 0xF0,
   0xF0, 0x10, 0xF0, 0x10, 0xF0]

/-- Glyphs 4 to 7 of the default `FONT` (R63). -/
def font4to7 : List Byte :=
  [0x90, 0x90, 0xF0, 0x10, 0x10,
   0xF0, 0x80, 0xF0, 0x10, 0xF0,
   0xF0, 0x80, 0xF0, 0x90, 0xF0,
   0xF0, 0x10, 0x20, 0x40, 0x40]

/-- Glyphs 8 to B of the default `FONT` (R63); A's bytes are the source's, the others are general knowledge (log entry 5). -/
def font8toB : List Byte :=
  [0xF0, 0x90, 0xF0, 0x90, 0xF0,
   0xF0, 0x90, 0xF0, 0x10, 0xF0,
   0xF0, 0x90, 0xF0, 0x90, 0x90,
   0xE0, 0x90, 0xE0, 0x90, 0xE0]

/-- Glyphs C to F of the default `FONT` (R63). -/
def fontCtoF : List Byte :=
  [0xF0, 0x80, 0x80, 0x80, 0xF0,
   0xE0, 0x90, 0x90, 0x90, 0xE0,
   0xF0, 0x80, 0xF0, 0x80, 0xF0,
   0xF0, 0x80, 0xF0, 0x80, 0x80]

/-- The default `FONT`: 80 bytes, glyph `d` at `5*d` (R62, R63). PRESUMED but for glyph A (log entry 5). -/
def defaultFont : List Byte := font0to3 ++ font4to7 ++ font8toB ++ fontCtoF

/-- `FONT_BASE` (00_scope.md R8). -/
def fontBase : Nat := 0x000

/-- `PROG_ORIGIN`: where a program is loaded and the first tick fetches (R8, R64, R272). -/
def progOrigin : Nat := 0x200

/-- The last address of memory (R60): `addr <= 0xFFF` is in range (R66). -/
def memTop : Nat := 0xFFF

/-- What an address that memory does not list reads as: the reset contents, the default `FONT` from `FONT_BASE` and 0
after it (R62 to R64, R271). Log entry 7. -/
def Memory.unlisted (a : Nat) : Byte := defaultFont.getD (a - fontBase) 0

/-! ### Memory as data -/

/-- The byte at an address. -/
def Memory.read : Memory → Nat → Byte
  | [], a => Memory.unlisted a
  | (k, b) :: rest, a => if k = a then b else Memory.read rest a

/-- Put a byte in front of a memory that lists only higher addresses; the byte an unlisted address reads as is left out. -/
def Memory.putFront (a : Nat) (b : Byte) (m : Memory) : Memory :=
  if b = Memory.unlisted a then m else (a, b) :: m

/-- Write a byte, keeping the canonical form. -/
def Memory.write (m : Memory) (a : Nat) (b : Byte) : Memory :=
  match m with
  | [] => Memory.putFront a b []
  | (k, c) :: rest =>
    if a < k then Memory.putFront a b ((k, c) :: rest)
    else if a = k then Memory.putFront a b rest
    else (k, c) :: Memory.write rest a b

/-- The canonical form: addresses strictly rising and inside memory, and no entry equal to what its address reads as
unlisted. -/
abbrev Memory.wf (m : Memory) : Prop :=
  m.Pairwise (fun c d => c.1 < d.1) ∧ ∀ c ∈ m, c.1 ≤ memTop ∧ c.2 ≠ Memory.unlisted c.1

/-! ### Registers -/

/-- `V[x]` (R16, R20). -/
def State.reg (s : State) (x : RegIdx) : Byte := s.v.get x

/-- `V[x] <- b` (R16, R20). -/
def State.setReg (s : State) (x : RegIdx) (b : Byte) : State := { s with v := s.v.set x.val b x.isLt }

/-- `PC <- u16(PC + 2)`: the advance of every tick (R103), and a skip (R25, R139). -/
def State.advancePc (s : State) : State := { s with pc := s.pc + 2 }

/-- A skip adds 2 to the already advanced `PC` when its condition holds (R134 to R137, R139, R211, R212). -/
def State.skipIf (c : Bool) (s : State) : State := { s with pc := if c then s.pc + 2 else s.pc }

/-! ### Events: the one shared operation of both error kinds (R16, R230 to R234) -/

/-- `emit E` and `raise E`: append an event to the step's output. Nothing else changes, no control is transferred and
the instruction goes on (R16, R230). -/
def State.emit (s : State) (e : Event) : State := { s with events := s.events ++ [e] }

/-- Execute for a word that matches no operation: `raise UnknownInstruction(w)` (R232). -/
def State.unknownInstruction (w : Word) (s : State) : State := s.emit (.unknownInstruction w)

/-! ### The memory primitives (R66 to R71) -/

/-- What `MemRead(a, 1)` returns: the byte, or 0 above 0xFFF (R66). -/
def State.byteAt (s : State) (a : Nat) : Byte := if a ≤ memTop then s.mem.read a else 0

/-- `MemRead(a, 1)`: the byte, and the state after the out-of-range event if there is one (R66, R69). -/
def memRead (a : Nat) (s : State) : Byte × State :=
  (s.byteAt a, if a ≤ memTop then s else s.emit (.outOfRange a .read))

/-- `MemWrite(a, 1, b)`: in range the byte is written, otherwise the write is dropped and the event raised (R67, R69). -/
def memWrite (a : Nat) (b : Byte) (s : State) : State :=
  if a ≤ memTop then { s with mem := s.mem.write a b } else s.emit (.outOfRange a .write)

/-- The effective address `u16(base + k)` (R68; D8, log entry 13). -/
def effAddr (base : Word) (k : Nat) : Nat := (base.toNat + k) % 0x10000

/-- `n` reads at `u16(base + k)`, `u16(base + k + 1)`, ...: ascending, each checked on its own (R71, R176). -/
def readBytes (base : Word) : Nat → Nat → State → List Byte × State
  | _, 0, s => ([], s)
  | k, n + 1, s =>
    let r := memRead (effAddr base k) s
    let rest := readBytes base (k + 1) n r.2
    (r.1 :: rest.1, rest.2)

/-- Writes of the given bytes at `u16(base + k)`, `u16(base + k + 1)`, ...: ascending, each checked on its own (R71, R176). -/
def writeBytes (base : Word) : Nat → List Byte → State → State
  | _, [], s => s
  | k, b :: bs, s => writeBytes base (k + 1) bs (memWrite (effAddr base k) b s)

/-- `V[k]`, `V[k+1]`, ... take the given bytes, ascending (R175). -/
def writeRegs : Nat → List Byte → State → State
  | _, [], s => s
  | k, b :: bs, s => writeRegs (k + 1) bs (s.setReg (Fin.ofNat 16 k) b)

/-! ### The call stack (R28 to R32) -/

/-- The entry `SP` addresses: `SP mod 16` (R30; D4, log entry 12). -/
def stackSlot (sp : Byte) : Fin 16 := ⟨sp.toNat % 16, Nat.mod_lt _ (by decide)⟩

/-- `stack[j]` (R16, R29). -/
def State.stackAt (s : State) (j : Fin 16) : Word := s.stack.get j

/-- `pushCall`: `SP <- u8(SP + 1); stack[SP mod 16] <- ret` (R31). -/
def State.pushCall (s : State) (ret : Word) : State :=
  { s with
    sp := s.sp + 1
    stack := s.stack.set (stackSlot (s.sp + 1)).val ret (stackSlot (s.sp + 1)).isLt }

/-- `popCall`: `let r = stack[SP mod 16]; SP <- u8(SP - 1); return r`; the entry stays (R32). -/
def State.popCall (s : State) : Word × State :=
  (s.stackAt (stackSlot s.sp), { s with sp := s.sp - 1 })

/-! ### The framebuffer (R37) -/

/-- `fb[px][py]` (R16). -/
def Framebuffer.pixel (fb : Framebuffer) (px : Fin 64) (py : Fin 32) : Bool := (fb.get px).get py

/-- `fb[px][py] <- b` (R16). -/
def Framebuffer.setPixel (fb : Framebuffer) (px : Fin 64) (py : Fin 32) (b : Bool) : Framebuffer :=
  fb.set px.val ((fb.get px).set py.val b py.isLt) px.isLt

/-- Every pixel unlit (R190, R271). -/
def Framebuffer.clear : Framebuffer := Vector.replicate 64 (Vector.replicate 32 false)

/-! ### The input snapshot (R42, R43) -/

/-- The step's snapshot: the first of the host's list, or a free one where the list gives none. Log entry 1. -/
def State.input (s : State) : Input :=
  match s.inputs with
  | inp :: _ => inp
  | [] =>
    { keyDown := Config.freeKeyDown s.draws
      keyLast := Config.freeKeyLast s.draws
      rnd     := Config.freeRnd s.draws }

/-- The step is over: its snapshot is used up. Nothing of it persists (R46). -/
def State.useInput (s : State) : State := { s with inputs := s.inputs.tail, draws := s.draws + 1 }

/-- `key_down != 0`: at least one key is pressed (R213, R214). -/
def Input.anyKey (inp : Input) : Bool := inp.keyDown != 0

/-- `u8(key_last & 0xF)`: the key `LD Vx, K` stores (R213, R214; D11, log entry 15). -/
def Input.key (inp : Input) : Byte := BitVec.ofNat 8 (inp.keyLast &&& 0xF)

/-! ### The timer unit (60_exceptions.md section 4) -/

/-- `TIMER_PERIOD = ceil(CPU_FREQ_HZ / 60)` (R10, R241). -/
def timerPeriod (c : Config) : Nat := (c.cpuFreqHz + 59) / 60

/-- A countdown: one less if nonzero; 0 stays 0 (R244, R245). -/
def decay (t : Byte) : Byte := if t = 0 then 0 else t - 1

/-- The display event of the 60 Hz event: Redraw with the framebuffer as it is, if `dirty` (R243). -/
def redrawEvents (s : State) : List Event := if s.dirty then [.redraw s.fb] else []

/-- The tone events of the 60 Hz event: a start while `ST > 0`, and a stop when the decrement reaches 0 (R245). -/
def toneEvents (st : Byte) : List Event :=
  if st = 0 then [] else if st - 1 = 0 then [.toneStart, .toneStop] else [.toneStart]

/-- `TimerEvent()` (R242): Redraw and clear `dirty`; decrement `DT`; tone and decrement `ST`. -/
def timerEvent (s : State) : State :=
  { s with
    dirty  := false
    dt     := decay s.dt
    st     := decay s.st
    events := s.events ++ redrawEvents s ++ toneEvents s.st }

/-- The tick that is ending is the `TIMER_PERIOD`-th since the last 60 Hz event (R101, R241). -/
def tickFires (s : State) : Prop := s.tickCount + 1 = timerPeriod s.config

/-- `EndTick()` (R101): count the tick, and at `TIMER_PERIOD` restart the count and run the 60 Hz event. Written field by
field, so that the fields the 60 Hz event does not touch do not depend on the open frequency. -/
def endTick (s : State) : State :=
  let fires : Bool := s.tickCount + 1 == timerPeriod s.config
  let t := timerEvent s
  { s with
    tickCount := if fires then 0 else s.tickCount + 1
    dirty     := if fires then t.dirty else s.dirty
    dt        := if fires then t.dt else s.dt
    st        := if fires then t.st else s.st
    events    := if fires then t.events else s.events }

/-! ### The instruction cycle's parts (30_encoding.md R101 to R103; 44_input_timer.md R214) -/

/-- The word at `PC`: `MemRead(PC) ‖ MemRead(u16(PC + 1))` (R101, R102). -/
def State.fetchWord (s : State) : Word := wordOfBytes (s.byteAt (effAddr s.pc 0)) (s.byteAt (effAddr s.pc 1))

/-- The state after the fetch's two reads and the `PC` advance, the state execute sees (R24, R101 to R103). -/
def State.afterFetch (s : State) : State :=
  (memRead (effAddr s.pc 1) (memRead (effAddr s.pc 0) s).2).2.advancePc

/-- The key is stored and the wait is over, or there was none (R213, R214). -/
def State.storeKey (x : RegIdx) (s : State) : State := { s.setReg x s.input.key with waitKey := none }

/-- A poll of a pending key wait (R101, R214): with a key down the key is stored, the wait ends and the tick completes;
with none nothing changes. -/
def pollKey (x : RegIdx) (s : State) : State :=
  if s.input.anyKey then endTick (s.storeKey x) else s

/-- After execute: the tick completes unless a key wait began (R101), and the step's snapshot is used up. -/
def finishTick (s : State) : State :=
  (match s.waitKey with
   | none => endTick s
   | some _ => s).useInput

/-! ### Host actions before the first tick -/

/-- `load(addr, b)`: the host write port (10_state.md R45). -/
def hostLoad (a : Nat) (b : Byte) (s : State) : State := memWrite a b s

/-- The bytes of `bs` written at `a`, `a + 1`, ..., the addresses not wrapped (R273; D23, log entry 26). -/
def hostLoadFrom : Nat → List Byte → State → State
  | _, [], s => s
  | a, b :: bs, s => hostLoadFrom (a + 1) bs (hostLoad a b s)

/-- The ROM load: each byte in turn from 0x200 (R273). -/
def loadRom (rom : List Byte) (s : State) : State := hostLoadFrom progOrigin rom s

/-- `Reset()` for any parameters (R270, R271): every field 0, then `FONT` written at `FONT_BASE`, and `PC` at 0x200. -/
def State.construct (c : Config) (font : Vector Byte 80) : State :=
  hostLoadFrom fontBase font.toList { State.reset with config := c }

end Sys2Proof.Machine
end

