-- ==== Sys2Proof/Machine/Flags.lean ====
section
/-! DEFINITION. The flag computations (10_state.md R35, R36) and the one operation that writes a flag and a result
(41_alu.md R151). -/

namespace Sys2Proof.Machine

/-- A flag value as a register value: 1 or 0 (R36). -/
def flagByte (f : Bool) : Byte := if f then 1 else 0

/-- The carry of `a + b`: the sum is above 255 (R158). -/
def carryFlag (a b : Byte) : Bool := decide (a.toNat + b.toNat > 255)

/-- No borrow in `a - b`: `a > b`, unsigned and strict (R159, R161). -/
def noBorrowFlag (a b : Byte) : Bool := decide (a.toNat > b.toNat)

/-- The bit a shift right moves out: bit 0 (R160). -/
def shiftedOutLow (a : Byte) : Bool := a.getLsbD 0

/-- The bit a shift left moves out: bit 7 (R162). -/
def shiftedOutHigh (a : Byte) : Bool := a.getLsbD 7

/-- `VF <- flag; V[x] <- result`, in this order, so that with `x = 0xF` the result remains (R151; D10, log entry 14). -/
def State.writeFlagThenResult (s : State) (x : RegIdx) (flag : Bool) (result : Byte) : State :=
  (s.setReg VF (flagByte flag)).setReg x result

end Sys2Proof.Machine
end

