-- ==== Sys2Proof/Machine/Operands.lean ====
section
/-! DEFINITION. The operand forms: what an instruction reads or forms from its fields before it writes anything
(00_scope.md R17). Register operands are `State.reg`; effective addresses are `effAddr` (Ops.lean). -/

namespace Sys2Proof.Machine

/-- `zext_16(nnn)`: a 12-bit address widened with zeros (30_encoding.md R93). -/
def zextAddr (nnn : Addr) : Word := nnn.setWidth 16

/-- `zext_16(b)`: a byte widened with zeros (R14). -/
def zextByte (b : Byte) : Word := b.setWidth 16

/-- The key an input instruction names: `V[x] & 0xF` (44_input_timer.md R210). -/
def keyNumber (b : Byte) : Nat := (b &&& 0x0F#8).toNat

/-- The named key is pressed in the step's snapshot (R210 to R212). -/
def keyPressed (b : Byte) (s : State) : Bool := s.input.keyDown.getLsbD (keyNumber b)

/-- The value SHR and SHL shift: `V[x]`, or `V[y]` under FROM_VY (00_scope.md R13; 41_alu.md R160, R162). -/
def shiftOperand (x y : RegIdx) (s : State) : Byte :=
  match s.config.shiftVariant with
  | .ignoreVy => s.reg x
  | .fromVy => s.reg y

/-- The address of a font glyph: `FONT_BASE + 5 * (a & 0xF)` (42_index_memory.md R172). -/
def glyphAddr (a : Byte) : Word := BitVec.ofNat 16 (fontBase + 5 * (a &&& 0x0F#8).toNat)

/-- The decimal digits of a byte, hundreds first (R173). -/
def bcdDigits (b : Byte) : List Byte :=
  [BitVec.ofNat 8 (b.toNat / 100), BitVec.ofNat 8 (b.toNat / 10 % 10), BitVec.ofNat 8 (b.toNat % 10)]

/-- `V[0]`, ..., `V[x]`, inclusive of index `x` (R174). -/
def regsUpTo (x : RegIdx) (s : State) : List Byte := s.v.toList.take (x.val + 1)

/-- The column of a sprite pixel: `(cx + col) mod 64` (43_display.md R191, R196). -/
def pixelColumn (cx : Byte) (col : Nat) : Fin 64 := ⟨(cx.toNat + col) % 64, Nat.mod_lt _ (by decide)⟩

/-- The row of a sprite pixel: `(cy + row) mod 32` (R191, R196). -/
def pixelRow (cy : Byte) (row : Nat) : Fin 32 := ⟨(cy.toNat + row) % 32, Nat.mod_lt _ (by decide)⟩

end Sys2Proof.Machine
end

