-- ==== Sys2Proof/Machine/Alu.lean ====
section
/-! DEFINITION. ALU and register operations (41_alu.md): unsigned 8-bit arithmetic that wraps (R150). No meaning here
writes `PC` or raises an event; `VF` is written as a flag only where the rule says so (R151, R18). -/

namespace Sys2Proof.Machine

/-- `LD Vx, kk` (R152). -/
def execLdByte (x : RegIdx) (kk : Byte) (s : State) : Result := .next (s.setReg x kk)

/-- `ADD Vx, kk`: wraps, no flag (R153). -/
def execAddByte (x : RegIdx) (kk : Byte) (s : State) : Result := .next (s.setReg x (s.reg x + kk))

/-- `LD Vx, Vy` (R154). -/
def execLdReg (x y : RegIdx) (s : State) : Result := .next (s.setReg x (s.reg y))

/-- `OR Vx, Vy`: `VF` is not touched (R155). -/
def execOrReg (x y : RegIdx) (s : State) : Result := .next (s.setReg x (s.reg x ||| s.reg y))

/-- `AND Vx, Vy` (R156). -/
def execAndReg (x y : RegIdx) (s : State) : Result := .next (s.setReg x (s.reg x &&& s.reg y))

/-- `XOR Vx, Vy` (R157). -/
def execXorReg (x y : RegIdx) (s : State) : Result := .next (s.setReg x (s.reg x ^^^ s.reg y))

/-- `ADD Vx, Vy`: `VF` is the carry (R158). -/
def execAddReg (x y : RegIdx) (s : State) : Result :=
  .next (s.writeFlagThenResult x (carryFlag (s.reg x) (s.reg y)) (s.reg x + s.reg y))

/-- `SUB Vx, Vy`: `VF` is 1 when `Vx > Vy` (R159). -/
def execSubReg (x y : RegIdx) (s : State) : Result :=
  .next (s.writeFlagThenResult x (noBorrowFlag (s.reg x) (s.reg y)) (s.reg x - s.reg y))

/-- `SHR Vx`: `VF` is bit 0 of the shifted value (R160). -/
def execShr (x y : RegIdx) (s : State) : Result :=
  .next (s.writeFlagThenResult x (shiftedOutLow (shiftOperand x y s)) (shiftOperand x y s >>> 1))

/-- `SUBN Vx, Vy`: `VF` is 1 when `Vy > Vx` (R161). -/
def execSubnReg (x y : RegIdx) (s : State) : Result :=
  .next (s.writeFlagThenResult x (noBorrowFlag (s.reg y) (s.reg x)) (s.reg y - s.reg x))

/-- `SHL Vx`: `VF` is bit 7 of the shifted value (R162). -/
def execShl (x y : RegIdx) (s : State) : Result :=
  .next (s.writeFlagThenResult x (shiftedOutHigh (shiftOperand x y s)) (shiftOperand x y s <<< 1))

/-- `RND Vx, kk`: the step's random byte under the mask (R163). -/
def execRnd (x : RegIdx) (kk : Byte) (s : State) : Result := .next (s.setReg x (s.input.rnd &&& kk))

end Sys2Proof.Machine
end

