-- ==== Sys2Proof/Machine/Control.lean ====
section
/-! DEFINITION. Control transfer (40_control.md). Each meaning is execute alone: the state has been fetched from and its
`PC` is the address of the next instruction (R24, R103). No target is checked (R140). -/

namespace Sys2Proof.Machine

/-- `SYS nnn`: no effect (R130; D2, log entry 9). -/
def execSys (_nnn : Addr) (s : State) : Result := .next s

/-- `RET`: `PC` takes the popped entry (R131). -/
def execRet (s : State) : Result := .next { s.popCall.2 with pc := s.popCall.1 }

/-- `JP nnn`: `PC <- zext_16(nnn)` (R132). -/
def execJp (nnn : Addr) (s : State) : Result := .next { s with pc := zextAddr nnn }

/-- `CALL nnn`: push the address of the following instruction, then `PC <- zext_16(nnn)` (R133). -/
def execCall (nnn : Addr) (s : State) : Result := .next { s.pushCall s.pc with pc := zextAddr nnn }

/-- `SE Vx, kk` (R134). -/
def execSeByte (x : RegIdx) (kk : Byte) (s : State) : Result := .next (s.skipIf (s.reg x == kk))

/-- `SNE Vx, kk` (R135). -/
def execSneByte (x : RegIdx) (kk : Byte) (s : State) : Result := .next (s.skipIf (s.reg x != kk))

/-- `SE Vx, Vy` (R136). -/
def execSeReg (x y : RegIdx) (s : State) : Result := .next (s.skipIf (s.reg x == s.reg y))

/-- `SNE Vx, Vy` (R137). -/
def execSneReg (x y : RegIdx) (s : State) : Result := .next (s.skipIf (s.reg x != s.reg y))

/-- `JP V0, nnn`: `PC <- zext_16(V[0]) + zext_16(nnn)`, not masked to 12 bits (R138). -/
def execJpV0 (nnn : Addr) (s : State) : Result := .next { s with pc := zextByte (s.reg 0) + zextAddr nnn }

end Sys2Proof.Machine
end

