-- ==== Sys2Proof/Machine/Display.lean ====
section
/-! DEFINITION. Display compositing (43_display.md). -/

namespace Sys2Proof.Machine

/-- What DRW carries along while it draws: the framebuffer and the two values `collide` and `changed` (R191). -/
structure Drawing where
  fb      : Framebuffer
  collide : Bool
  changed : Bool
  deriving DecidableEq, Repr

/-- One set sprite bit: XOR the pixel; a lit pixel is a collision (R191). -/
def xorPixel (px : Fin 64) (py : Fin 32) (d : Drawing) : Drawing :=
  { fb := d.fb.setPixel px py (!d.fb.pixel px py)
    collide := d.collide || d.fb.pixel px py
    changed := true }

/-- Column `col` of a sprite row: bit `7 - col` of the byte, bit 7 leftmost (R191, R192). -/
def drawBit (cx cy : Byte) (row : Nat) (b : Byte) (d : Drawing) (col : Nat) : Drawing :=
  if b.getLsbD (7 - col) then xorPixel (pixelColumn cx col) (pixelRow cy row) d else d

/-- One sprite row: its 8 columns, left to right (R191). -/
def drawRow (cx cy : Byte) (row : Nat) (b : Byte) (d : Drawing) : Drawing :=
  (List.range 8).foldl (drawBit cx cy row b) d

/-- Sprite rows from `row` on, ascending (R191). -/
def drawRows (cx cy : Byte) : Nat → List Byte → Drawing → Drawing
  | _, [], d => d
  | row, b :: bs, d => drawRows cx cy (row + 1) bs (drawRow cx cy row b d)

/-- The whole sprite at `(cx, cy)` (R191). -/
def drawSprite (cx cy : Byte) (sprite : List Byte) (fb : Framebuffer) : Drawing :=
  drawRows cx cy 0 sprite { fb := fb, collide := false, changed := false }

/-- `CLS`: every pixel unlit, `dirty` set (R190; D25, log entry 22). -/
def execCls (s : State) : Result := .next { s with fb := Framebuffer.clear, dirty := true }

/-- `DRW Vx, Vy, n`: XOR an 8 x n sprite read from `I` on; `VF` is the collision; `dirty` is set if a pixel changed
(R191, R195). The reads depend on no pixel, so they stand before the drawing; their events are in the rule's order. -/
def execDrw (x y : RegIdx) (n : Nibble) (s : State) : Result :=
  let r := readBytes s.i 0 n.toNat s
  let d := drawSprite (s.reg x) (s.reg y) r.1 s.fb
  .next (({ r.2 with fb := d.fb, dirty := s.dirty || d.changed } : State).setReg VF (flagByte d.collide))

end Sys2Proof.Machine
end

