-- ==== Sys2Proof/Machine/Index.lean ====
section
/-! DEFINITION. Index register and memory transfers (42_index_memory.md). No meaning here writes `PC` or a flag, and the
memory transfers leave `I` as it is (R173 to R176; D15, log entry 19). -/

namespace Sys2Proof.Machine

/-- `LD I, nnn` (R170). -/
def execLdI (nnn : Addr) (s : State) : Result := .next { s with i := zextAddr nnn }

/-- `ADD I, Vx`: wraps at 16 bits, no flag (R171). -/
def execAddI (x : RegIdx) (s : State) : Result := .next { s with i := s.i + zextByte (s.reg x) }

/-- `LD F, Vx` (R172). -/
def execLdF (x : RegIdx) (s : State) : Result := .next { s with i := glyphAddr (s.reg x) }

/-- `LD B, Vx`: three decimal digits at `I`, `I+1`, `I+2` (R173). -/
def execLdB (x : RegIdx) (s : State) : Result := .next (writeBytes s.i 0 (bcdDigits (s.reg x)) s)

/-- `LD [I], Vx`: `V[0]`..`V[x]` stored from `I` on (R174). -/
def execStoreRegs (x : RegIdx) (s : State) : Result := .next (writeBytes s.i 0 (regsUpTo x s) s)

/-- `LD Vx, [I]`: `V[0]`..`V[x]` loaded from `I` on (R175). -/
def execLoadRegs (x : RegIdx) (s : State) : Result :=
  .next (writeRegs 0 (readBytes s.i 0 (x.val + 1) s).1 (readBytes s.i 0 (x.val + 1) s).2)

end Sys2Proof.Machine
end

