-- ==== Sys2Proof/Machine/InputTimer.lean ====
section
/-! DEFINITION. Input polling and timer transfers (44_input_timer.md). -/

namespace Sys2Proof.Machine

/-- `SKP Vx`: skip if key `V[x] & 0xF` is pressed (R211). -/
def execSkp (x : RegIdx) (s : State) : Result := .next (s.skipIf (keyPressed (s.reg x) s))

/-- `SKNP Vx`: skip if key `V[x] & 0xF` is not pressed (R212). -/
def execSknp (x : RegIdx) (s : State) : Result := .next (s.skipIf (!keyPressed (s.reg x) s))

/-- `LD Vx, K`: with a key down it is stored now; otherwise the key wait begins (R213; R214 is `pollKey`). -/
def execLdVxK (x : RegIdx) (s : State) : Result :=
  .next (if s.input.anyKey then s.setReg x s.input.key else { s with waitKey := some x })

/-- `LD Vx, DT` (R215). -/
def execLdVxDt (x : RegIdx) (s : State) : Result := .next (s.setReg x s.dt)

/-- `LD DT, Vx` (R216). -/
def execLdDtVx (x : RegIdx) (s : State) : Result := .next { s with dt := s.reg x }

/-- `LD ST, Vx`: no event here, the 60 Hz event signals the tone (R217; D14, log entry 18). -/
def execLdStVx (x : RegIdx) (s : State) : Result := .next { s with st := s.reg x }

end Sys2Proof.Machine
end

