-- ==== Sys2Proof/Machine/Step.lean ====
section
/-! DEFINITION. One step of the core (30_encoding.md R101), and the placing of an instruction where the step fetches. -/

namespace Sys2Proof.Machine

/-- `Step(in)` (R101): a poll of a pending key wait, or one tick: fetch, decode, `PC` advance, execute, `EndTick`. A word
that matches no operation raises its event and the tick completes (R232). -/
def step (s : State) : Host.Outcome State Fault Refusal :=
  match s.waitKey with
  | some x => .next (pollKey x s).useInput
  | none =>
    match decode s.fetchWord with
    | .ok i =>
      match exec i s.afterFetch with
      | .next t => .next (finishTick t)
      | .fault f => .fault f
      | .refused r => .refused r
    | .error _ => .next (finishTick (s.afterFetch.unknownInstruction s.fetchWord))

/-- The state with one instruction word stored where the next step fetches, high byte first (20_memory.md R70). Both
bytes must lie in memory, so a `PC` above 0xFFE is moved to the program origin; a pending key wait, during which nothing is
fetched (R214), is dropped. Nothing else changes. Log entry 26. -/
def State.withFetchWord (s : State) (nbits w : Nat) : State :=
  let at_ := if s.pc.toNat + 1 ≤ memTop then s.pc.toNat else progOrigin
  { s with
    pc := BitVec.ofNat 16 at_
    waitKey := none
    mem := (s.mem.write at_ (highByte (tableWord nbits w))).write (at_ + 1) (lowByte (tableWord nbits w)) }

end Sys2Proof.Machine
end

