-- ==== Sys2Proof/Safety.lean ====
section
/-! DEFINITION. The terms claims use: the parts of a state and what it means that a step leaves one alone, the invariant
of the machine, and the spec's end of an observed run. -/

namespace Sys2Proof.Machine

/-- Every part of a state that an instruction could change, down to one register, one byte, one pixel, one call-stack
entry (10_state.md R46 and the model's own fields). -/
inductive Part where
  | reg (x : RegIdx)
  | i
  | pc
  | sp
  | stack (j : Fin 16)
  | dt
  | st
  | byte (a : Nat)
  | pixel (px : Fin 64) (py : Fin 32)
  | dirty
  | tickCount
  | waitKey
  | config
  | inputs
  | draws
  | events
  deriving DecidableEq, Repr

/-- A part has the same value in two states. -/
def Part.same (s t : State) : Part → Prop
  | .reg x => t.reg x = s.reg x
  | .i => t.i = s.i
  | .pc => t.pc = s.pc
  | .sp => t.sp = s.sp
  | .stack j => t.stackAt j = s.stackAt j
  | .dt => t.dt = s.dt
  | .st => t.st = s.st
  | .byte a => t.mem.read a = s.mem.read a
  | .pixel px py => t.fb.pixel px py = s.fb.pixel px py
  | .dirty => t.dirty = s.dirty
  | .tickCount => t.tickCount = s.tickCount
  | .waitKey => t.waitKey = s.waitKey
  | .config => t.config = s.config
  | .inputs => t.inputs = s.inputs
  | .draws => t.draws = s.draws
  | .events => t.events = s.events

/-- Every part outside `D` is unchanged from `s` to `t` (00_scope.md R18). -/
def FrameExcept (D : Part → Prop) (s t : State) : Prop := ∀ p : Part, ¬ D p → p.same s t

/-- Every part but those listed is unchanged. -/
def FrameBut (ps : List Part) (s t : State) : Prop := FrameExcept (· ∈ ps) s t

/-- The `n` effective addresses `u16(base + k)`, `u16(base + k + 1)`, ... of a multi-byte transfer (42_index_memory.md R176). -/
def addrsFrom (base : Word) (k n : Nat) : List Nat := (List.range n).map fun j => effAddr base (k + j)

/-- One OutOfRange event per address above 0xFFF, in order (20_memory.md R66, R67, R69). -/
def outOfRangeEvents (dir : Dir) (addrs : List Nat) : List Event :=
  (addrs.filter (memTop < ·)).map (.outOfRange · dir)

/-- The sprite at `(cx, cy)` has a set bit on pixel `(px, py)`: the pixel is `col` columns and `row` rows after the
corner, modulo 64 and 32, with `col` below 8, `row` below the number of rows, and bit `7 - col` of that row's byte set
(43_display.md R191, R192). -/
def spriteCovers (cx cy : Byte) (sprite : List Byte) (px : Fin 64) (py : Fin 32) : Bool :=
  let col := (px.val + 64 - cx.toNat % 64) % 64
  let row := (py.val + 32 - cy.toNat % 32) % 32
  decide (col < 8) && (sprite.getD row 0).getLsbD (7 - col)

/-- The invariant of the machine: memory is in its canonical form inside 0x000..0xFFF (20_memory.md R60), `CPU_FREQ_HZ`
is positive (00_scope.md R9), and `tick_count` is below `TIMER_PERIOD` (10_state.md R39). -/
def State.Inv (s : State) : Prop :=
  s.mem.wf ∧ 0 < s.config.cpuFreqHz ∧ s.tickCount < timerPeriod s.config

/-- The next step fetches a jump to its own address, the end of an observed run (70_reset_and_hazards.md R275). The
machine does not stop there. -/
def State.atSelfJump (s : State) : Bool :=
  s.waitKey.isNone && decide (decode s.fetchWord = .ok (.jp (s.pc.setWidth 12))) && decide (s.pc.toNat ≤ memTop)

end Sys2Proof.Machine
end

