-- ==== Sys2Proof/Certificates/Slice0/Obligations.lean ====
section
/-! DEFINITION. The statements about the model, each a proposition about every state and every operand; none is proved
here. Where a docstring says that nothing else changes, that clause rests on the spec's frame rule R18, its decision D27
(log entry 25). Every word and every byte of an encoding rests on the historical opcode values (log entry 8). -/

open Sys2Proof Sys2Proof.Machine

/-! ### Encoding and decoding (30_encoding.md) -/

/-- Words of every format, written out from the opcode map of R107 and the vectors T-E1 to T-E14, decode to the
instruction they stand for; the words of R109's program among them. -/
def Obligations.DecodeKnownWords : Prop :=
  [0x00E0, 0x600A, 0x610A, 0x620A, 0xF029, 0xD125].map decode =
    [.ok .cls, .ok (.ldByte 0 0x0A), .ok (.ldByte 1 0x0A), .ok (.ldByte 2 0x0A), .ok (.ldF 0), .ok (.drw 1 2 5)] ∧
  [0x01E0, 0x00EE, 0x1228, 0x5127, 0x9AB3, 0x812E, 0xE19E, 0xF10A, 0xF155, 0xBFFF].map decode =
    [.ok (.sys 0x1E0), .ok .ret, .ok (.jp 0x228), .ok (.seReg 1 2), .ok (.sneReg 0xA 0xB), .ok (.shl 1 2),
     .ok (.skp 1), .ok (.ldVxK 1), .ok (.storeRegs 1), .ok (.jpV0 0xFFF)] ∧
  [0x8008, 0xE100, 0xF000].map decode =
    [.error (.unknownInstruction 0x8008), .error (.unknownInstruction 0xE100), .error (.unknownInstruction 0xF000)]

/-- Decoding an encoded well-formed instruction gives it back, with every operand, as a word and as bytes in memory order
with anything after them (R91, R92, R107; R70). -/
def Obligations.DecodeEncodeRoundTrip : Prop :=
  ∀ i : Instr, i.wellFormed = true →
    decode (encode i) = .ok i ∧ ∀ rest : List Byte, decodeBytes (encodeBytes i ++ rest) = .ok (i, rest)

/-- The other direction: a word that decodes is the encoding of what it decodes to, but for the ignored low nibble of
5xy_ and 9xy_ (R96); and what it decodes to is well formed. -/
def Obligations.EncodeDecodeGivesTheWord : Prop :=
  ∀ (w : Word) (i : Instr), decode w = .ok i →
    i.wellFormed = true ∧
    encode i = if opField w = 0x5 ∨ opField w = 0x9 then w &&& 0xFFF0 else w

/-- Exactly the words of R99 match no operation: 8xyN, Exkk and Fxkk outside the listed second keys. Every other word
decodes. -/
def Obligations.UnknownWordsAreExactlyThese : Prop :=
  ∀ w : Word,
    if (w.toNat / 0x1000 = 0x8 ∧ w.toNat % 0x10 ∈ [0x8, 0x9, 0xA, 0xB, 0xC, 0xD, 0xF]) ∨
       (w.toNat / 0x1000 = 0xE ∧ w.toNat % 0x100 ∉ [0x9E, 0xA1]) ∨
       (w.toNat / 0x1000 = 0xF ∧ w.toNat % 0x100 ∉ [0x07, 0x0A, 0x15, 0x18, 0x1E, 0x29, 0x33, 0x55, 0x65])
    then decode w = .error (.unknownInstruction w)
    else ∃ i, decode w = .ok i

/-- Every word 5xyn is SE Vx, Vy and every word 9xyn is SNE Vx, Vy, whatever n is (R96). -/
def Obligations.RegisterSkipsIgnoreTheLowNibble : Prop :=
  ∀ (x y : RegIdx) (n : Nibble),
    decode (packXYN 0x5 x y n) = .ok (.seReg x y) ∧ decode (packXYN 0x9 x y n) = .ok (.sneReg x y)

/-! ### The instruction cycle -/

/-- The fetch reads the byte at PC as the high byte and the byte at u16(PC + 1) as the low byte, through the bounds check;
execute then sees PC advanced by 2 modulo 2^16 and nothing else changed but the fetch's events (R101 to R103, R70). The
16-bit wrap of PC + 1 is the spec's decision D8, log entry 13. -/
def Obligations.FetchIsBigEndianAndAdvancesPc : Prop :=
  ∀ s : State,
    s.fetchWord.toNat = (s.byteAt s.pc.toNat).toNat * 0x100 + (s.byteAt ((s.pc.toNat + 1) % 0x10000)).toNat ∧
    s.afterFetch.pc.toNat = (s.pc.toNat + 2) % 0x10000 ∧
    s.afterFetch.events =
      s.events ++ outOfRangeEvents .read [s.pc.toNat, (s.pc.toNat + 1) % 0x10000] ∧
    FrameBut [.pc, .events] s s.afterFetch

/-- With no key wait pending, a step is exec of the decoded instruction in the state after the fetch and the PC advance,
followed by the end of the tick (unless a key wait began) and the use of the step's snapshot (R101). -/
def Obligations.StepRunsTheDecodedInstruction : Prop :=
  ∀ (s t : State) (i : Instr), s.waitKey = none → decode s.fetchWord = .ok i → exec i s.afterFetch = .next t →
    step s = .next (if t.waitKey = none then (endTick t).useInput else t.useInput)

/-- A word that matches no operation raises its event and nothing else changes but the PC advance (R232); then the tick
completes (R101) and the step's snapshot is used up. The end of the tick is the spec's decision D13 (log entry 17), the
snapshot and the event log are the model's own fields (log entries 1 and 2). -/
def Obligations.UnknownInstructionOnlyRaisesItsEvent : Prop :=
  ∀ s : State, s.waitKey = none → decode s.fetchWord = .error (.unknownInstruction s.fetchWord) →
    ∃ t : State, step s = .next (endTick t).useInput ∧
      t.pc = s.pc + 2 ∧
      t.events = s.afterFetch.events ++ [.unknownInstruction s.fetchWord] ∧
      FrameBut [.events] s.afterFetch t

/-- An instruction placed by withFetchWord is the word the next step fetches, and no key wait is pending. The model's own
convention (log entry 26). -/
def Obligations.PlacedWordIsFetched : Prop :=
  ∀ (s : State) (w : Word), s.mem.wf →
    (s.withFetchWord 16 w.toNat).fetchWord = w ∧ (s.withFetchWord 16 w.toNat).waitKey = none ∧
    (s.withFetchWord 16 w.toNat).mem.wf

/-- Every step answers a next state: no trap, no halt, no fatal error (R274, R230). -/
def Obligations.EveryStepHasANextState : Prop := ∀ s : State, ∃ t : State, step s = .next t

/-- The events of a tick stand in the log in the order the cycle raises them, and the log only grows: the fetch's two
bytes, then execute's events (accesses out of range, or one unknown instruction), then the 60 Hz event's Redraw, ToneStart
and ToneStop (R234). -/
def Obligations.EventsOfATickAreInOrder : Prop :=
  ∀ s t : State, s.waitKey = none → step s = .next t →
    ∃ ex redraw tone : List Event,
      t.events = s.events ++ outOfRangeEvents .read [effAddr s.pc 0, effAddr s.pc 1] ++ ex ++ redraw ++ tone ∧
      ((∃ dir as, ex = outOfRangeEvents dir as) ∨ ex = [.unknownInstruction s.fetchWord]) ∧
      (redraw = [] ∨ redraw = [.redraw t.fb]) ∧
      (tone = [] ∨ tone = [.toneStart] ∨ tone = [.toneStart, .toneStop]) ∧
      (redraw ++ tone ≠ [] → s.tickCount + 1 = timerPeriod s.config)

/-! ### Invariants and whole-machine rules -/

/-- The machine right after reset meets the invariant. -/
def Obligations.ResetMeetsTheInvariant : Prop := State.reset.Inv

/-- Every step keeps the invariant: memory stays canonical and inside 0x000..0xFFF, CPU_FREQ_HZ stays positive, and
tick_count stays below TIMER_PERIOD (R39, R60, R9). -/
def Obligations.EveryStepKeepsTheInvariant : Prop := ∀ s t : State, s.Inv → step s = .next t → t.Inv

/-- No step changes the parameters of the machine, and every step uses exactly one input snapshot (R42, R46; the fields
are the model's own, log entries 1 and 3). -/
def Obligations.StepKeepsParametersAndUsesOneSnapshot : Prop :=
  ∀ s t : State, step s = .next t →
    t.config = s.config ∧ t.inputs = s.inputs.tail ∧ t.draws = s.draws + 1

/-- SP is 0 at reset; CALL adds 1 and RET takes 1 away, modulo 256; no other instruction, no unknown word, no key-wait
poll and no 60 Hz event changes it (R28). -/
def Obligations.OnlyCallAndRetChangeSp : Prop :=
  State.reset.sp = 0 ∧
  (∀ (i : Instr) (s t : State), exec i s = .next t →
    t.sp.toNat =
      (match i with
       | .call _ => (s.sp.toNat + 1) % 0x100
       | .ret => (s.sp.toNat + 0xFF) % 0x100
       | _ => s.sp.toNat)) ∧
  (∀ s t : State, step s = .next t →
    t.sp.toNat =
      (match s.waitKey, decode s.fetchWord with
       | none, .ok (.call _) => (s.sp.toNat + 1) % 0x100
       | none, .ok .ret => (s.sp.toNat + 0xFF) % 0x100
       | _, _ => s.sp.toNat))

/-- During execute only LD I, ADD I and LD F change I, only LD DT changes DT, only LD ST changes ST, only LD Vx, K begins
a key wait, and no instruction reads or writes tick_count (R27, R33, R34, R39, R40). -/
def Obligations.OnlyTheirInstructionsChangeSpecialRegisters : Prop :=
  ∀ (i : Instr) (s t : State), exec i s = .next t →
    (t.i ≠ s.i → (∃ nnn, i = .ldI nnn) ∨ (∃ x, i = .addI x) ∨ ∃ x, i = .ldF x) ∧
    (t.dt ≠ s.dt → ∃ x, i = .ldDtVx x) ∧
    (t.st ≠ s.st → ∃ x, i = .ldStVx x) ∧
    (t.waitKey ≠ s.waitKey → ∃ x, i = .ldVxK x) ∧
    t.tickCount = s.tickCount ∧
    ∀ c : Nat, exec i { s with tickCount := c } = .next { t with tickCount := c }

/-- Only CLS and DRW change the framebuffer or dirty during execute, and neither ever clears dirty (R37, R38, R195). -/
def Obligations.OnlyClsAndDrwChangeTheDisplay : Prop :=
  ∀ (i : Instr) (s t : State), exec i s = .next t →
    (t.fb ≠ s.fb ∨ t.dirty ≠ s.dirty → i = .cls ∨ ∃ x y n, i = .drw x y n) ∧
    (s.dirty = true → t.dirty = true)

/-- Only LD B and LD [I] change memory, only CALL changes the call stack (R29, R61, R173, R174). -/
def Obligations.OnlyStoresChangeMemory : Prop :=
  ∀ (i : Instr) (s t : State), exec i s = .next t →
    ((∃ a, t.mem.read a ≠ s.mem.read a) → (∃ x, i = .ldB x) ∨ ∃ x, i = .storeRegs x) ∧
    ((∃ j, t.stackAt j ≠ s.stackAt j) → ∃ nnn, i = .call nnn)

/-- VF changes only in the flag writers of R36 and in an instruction whose destination register it is; a register other
than VF changes only in an instruction of which it is a destination (R21, R36, R18). -/
def Obligations.OnlyDestinationsAndFlagWritersChangeRegisters : Prop :=
  ∀ (i : Instr) (s t : State) (k : RegIdx), exec i s = .next t → t.reg k ≠ s.reg k →
    match i with
    | .addReg x _ | .subReg x _ | .shr x _ | .subnReg x _ | .shl x _ => k = x ∨ k = VF
    | .drw _ _ _ => k = VF
    | .ldByte x _ | .addByte x _ | .ldReg x _ | .orReg x _ | .andReg x _ | .xorReg x _ | .rnd x _ => k = x
    | .ldVxDt x | .ldVxK x => k = x
    | .loadRegs x => k ≤ x
    | _ => False

/-! ### Reset and the ROM load -/

/-- The state right after reset (R271, R46, T-R1): the registers, the display and the hidden state 0, PC at 0x200, memory
the default FONT and zeros, nothing pending. Every value but PC, SP and the font load is the spec's decision D5, D12 or
D13 (log entries 5, 6, 16 and 17); the last three fields are the model's own (log entries 1 and 2). -/
def Obligations.ResetStateIsAsSpecified : Prop :=
  State.reset.pc = 0x200 ∧ State.reset.sp = 0 ∧ State.reset.i = 0 ∧ State.reset.dt = 0 ∧ State.reset.st = 0 ∧
  (∀ k, State.reset.reg k = 0) ∧ (∀ j, State.reset.stackAt j = 0) ∧
  (∀ px py, State.reset.fb.pixel px py = false) ∧ State.reset.dirty = false ∧
  State.reset.tickCount = 0 ∧ State.reset.waitKey = none ∧
  (∀ a, State.reset.byteAt a = if a < 80 then defaultFont.getD a 0 else 0) ∧
  State.reset.config.shiftVariant = .ignoreVy ∧ 0 < State.reset.config.cpuFreqHz ∧
  State.reset.inputs = [] ∧ State.reset.draws = 0 ∧ State.reset.events = []

/-- Reset with any parameters: FONT at 0x000..0x04F, zeros after it, memory canonical, and every other field as at reset;
with the default FONT it is the reset state (R11, R62, R271). -/
def Obligations.ConstructionLoadsTheFont : Prop :=
  (∀ (c : Config) (font : Vector Byte 80),
    (∀ (k : Nat) (h : k < 80), (State.construct c font).byteAt k = font[k]) ∧
    (∀ a, 80 ≤ a → (State.construct c font).byteAt a = 0) ∧
    (State.construct c font).mem.wf ∧
    State.construct c font = { State.reset with config := c, mem := (State.construct c font).mem }) ∧
  ∀ font : Vector Byte 80, font.toList = defaultFont → State.construct Config.atReset font = State.reset

/-- The ROM load writes the ROM's bytes in turn from 0x200, drops those beyond 0xFFF with one event each, and changes
nothing else (R273; the unwrapped address is the spec's decision D23, log entry 26). -/
def Obligations.RomLoadWritesFromTheOrigin : Prop :=
  ∀ (s : State) (rom : List Byte), s.mem.wf →
    (∀ (k : Nat) (h : k < rom.length), 0x200 + k ≤ 0xFFF → (loadRom rom s).byteAt (0x200 + k) = rom[k]) ∧
    (loadRom rom s).events =
      s.events ++ outOfRangeEvents .write ((List.range rom.length).map (0x200 + ·)) ∧
    FrameExcept
      (fun p => p = .events ∨ ∃ k < rom.length, 0x200 + k ≤ 0xFFF ∧ p = .byte (0x200 + k)) s (loadRom rom s)

/-! ### Memory primitives (20_memory.md) -/

/-- MemRead and MemWrite (R66, R67): in range the byte is read, or written and every other address left alone; above
0xFFF a read gives 0, a write is dropped, and each raises one event. The rules take a 16-bit address; the model's is any
number, as a ROM load needs (log entry 20; D20, D23). The event log is the model's own (log entry 2), and that nothing
else changes is the frame rule, decision D27 (log entry 25). -/
def Obligations.MemoryPrimitivesCheckBounds : Prop :=
  ∀ (s : State) (a : Nat) (b : Byte), s.mem.wf →
    if a ≤ 0xFFF then
      memRead a s = (s.mem.read a, s) ∧
      (∀ c, (memWrite a b s).mem.read c = if c = a then b else s.mem.read c) ∧
      FrameBut [.byte a] s (memWrite a b s)
    else
      (memRead a s).1 = 0 ∧
      (memRead a s).2.events = s.events ++ [.outOfRange a .read] ∧ FrameBut [.events] s (memRead a s).2 ∧
      (memWrite a b s).events = s.events ++ [.outOfRange a .write] ∧ FrameBut [.events] s (memWrite a b s)

/-- A store over the bytes of the next instruction is seen by the very next fetch (R78, R278): LD [I], V1 at I = PC
leaves V0 and V1 as the next instruction word. -/
def Obligations.StoreIsSeenByTheNextFetch : Prop :=
  ∀ s t : State, s.mem.wf → s.i = s.pc → s.pc.toNat + 1 ≤ 0xFFF → exec (.storeRegs 1) s = .next t →
    t.fetchWord = wordOfBytes (s.reg 0) (s.reg 1)

/-! ### Control transfer (40_control.md) -/

/-- SYS nnn has no effect (R130; that it is the 35th operation is the spec's decision D2, log entry 9). -/
def Obligations.SysHasNoEffect : Prop := ∀ (nnn : Addr) (s : State), exec (.sys nnn) s = .next s

/-- RET takes PC from stack[SP mod 16] and then takes 1 from SP modulo 256; the entry stays (R131, R32; the indexing is
the spec's decision D4, log entry 12). -/
def Obligations.ReturnPopsTheCallStack : Prop :=
  ∀ s : State, ∃ t : State, exec .ret s = .next t ∧
    t.pc = s.stackAt (Fin.ofNat 16 s.sp.toNat) ∧
    t.sp.toNat = (s.sp.toNat + 0xFF) % 0x100 ∧
    FrameBut [.pc, .sp] s t

/-- JP nnn sets PC to nnn and changes nothing else (R132). -/
def Obligations.JumpSetsPc : Prop :=
  ∀ (nnn : Addr) (s : State), ∃ t : State, exec (.jp nnn) s = .next t ∧
    t.pc.toNat = nnn.toNat ∧ FrameBut [.pc] s t

/-- CALL nnn adds 1 to SP modulo 256, stores the address of the following instruction at stack[SP mod 16] and jumps
(R133, R31; the indexing is the spec's decision D4, log entry 12). -/
def Obligations.CallPushesAndJumps : Prop :=
  ∀ (nnn : Addr) (s : State), ∃ t : State, exec (.call nnn) s = .next t ∧
    t.pc.toNat = nnn.toNat ∧
    t.sp.toNat = (s.sp.toNat + 1) % 0x100 ∧
    t.stackAt (Fin.ofNat 16 (s.sp.toNat + 1)) = s.pc ∧
    FrameBut [.pc, .sp, .stack (Fin.ofNat 16 (s.sp.toNat + 1))] s t

/-- SE Vx, kk skips one word when Vx = kk, SNE Vx, kk when not; nothing else changes (R134, R135). -/
def Obligations.ByteSkipsCompareWithKk : Prop :=
  ∀ (x : RegIdx) (kk : Byte) (s : State), ∃ t u : State,
    exec (.seByte x kk) s = .next t ∧ exec (.sneByte x kk) s = .next u ∧
    t.pc.toNat = (if (s.reg x).toNat = kk.toNat then (s.pc.toNat + 2) % 0x10000 else s.pc.toNat) ∧
    u.pc.toNat = (if (s.reg x).toNat = kk.toNat then s.pc.toNat else (s.pc.toNat + 2) % 0x10000) ∧
    FrameBut [.pc] s t ∧ FrameBut [.pc] s u

/-- SE Vx, Vy skips one word when Vx = Vy, SNE Vx, Vy when not; nothing else changes (R136, R137). -/
def Obligations.RegisterSkipsCompareVxWithVy : Prop :=
  ∀ (x y : RegIdx) (s : State), ∃ t u : State,
    exec (.seReg x y) s = .next t ∧ exec (.sneReg x y) s = .next u ∧
    t.pc.toNat = (if (s.reg x).toNat = (s.reg y).toNat then (s.pc.toNat + 2) % 0x10000 else s.pc.toNat) ∧
    u.pc.toNat = (if (s.reg x).toNat = (s.reg y).toNat then s.pc.toNat else (s.pc.toNat + 2) % 0x10000) ∧
    FrameBut [.pc] s t ∧ FrameBut [.pc] s u

/-- JP V0, nnn sets PC to V0 + nnn, not masked to 12 bits and never above 0x10FE (R138). -/
def Obligations.JumpV0AddsTheOffset : Prop :=
  ∀ (nnn : Addr) (s : State), ∃ t : State, exec (.jpV0 nnn) s = .next t ∧
    t.pc.toNat = (s.reg 0).toNat + nnn.toNat ∧ t.pc.toNat ≤ 0x10FE ∧ FrameBut [.pc] s t

/-- CALLs in turn, each executed at the address the list gives, to the target the list gives. -/
def nestedCalls : List (Word × Addr) → State → Result
  | [], s => .next s
  | (ret, nnn) :: cs, s =>
    match exec (.call nnn) { s with pc := ret } with
    | .next t => nestedCalls cs t
    | .fault f => .fault f
    | .refused r => .refused r

/-- `n` RETs in turn. -/
def returns : Nat → State → Result
  | 0, s => .next s
  | n + 1, s =>
    match exec .ret s with
    | .next t => returns n t
    | .fault f => .fault f
    | .refused r => .refused r

/-- N nested calls with N at most 16, from any SP: the k-th return lands on the address the k-th last call saved, and SP
is down by as many, so after N returns PC is the first call's return address and SP its pre-call value (R142; the
indexing is the spec's decision D4, log entry 12). -/
def Obligations.CallsAndReturnsPair : Prop :=
  ∀ (cs : List (Word × Addr)) (s : State), cs.length ≤ 16 →
    ∃ t : State, nestedCalls cs s = .next t ∧
      ∀ (k : Nat) (h : k < cs.length), ∃ u : State, returns (k + 1) t = .next u ∧
        u.pc = (cs[cs.length - 1 - k]'(by omega)).1 ∧
        u.sp = s.sp + BitVec.ofNat 8 (cs.length - 1 - k)

/-! ### ALU (41_alu.md) -/

/-- LD Vx, kk and LD Vx, Vy assign; ADD Vx, kk adds modulo 256 with no flag; nothing else changes (R152, R153, R154). -/
def Obligations.LoadsAndAddByteWriteOnlyVx : Prop :=
  ∀ (x y : RegIdx) (kk : Byte) (s : State), ∃ t u w : State,
    exec (.ldByte x kk) s = .next t ∧ exec (.ldReg x y) s = .next u ∧ exec (.addByte x kk) s = .next w ∧
    t.reg x = kk ∧ u.reg x = s.reg y ∧ (w.reg x).toNat = ((s.reg x).toNat + kk.toNat) % 0x100 ∧
    FrameBut [.reg x] s t ∧ FrameBut [.reg x] s u ∧ FrameBut [.reg x] s w

/-- OR, AND and XOR act bit by bit into Vx and touch nothing else, VF among it (R155, R156, R157; that VF is not cleared
is the spec's decision D27, log entry 25). -/
def Obligations.LogicOperationsActBitwise : Prop :=
  ∀ (x y : RegIdx) (s : State), ∃ t u w : State,
    exec (.orReg x y) s = .next t ∧ exec (.andReg x y) s = .next u ∧ exec (.xorReg x y) s = .next w ∧
    (∀ k < 8, (t.reg x).getLsbD k = ((s.reg x).getLsbD k || (s.reg y).getLsbD k)) ∧
    (∀ k < 8, (u.reg x).getLsbD k = ((s.reg x).getLsbD k && (s.reg y).getLsbD k)) ∧
    (∀ k < 8, (w.reg x).getLsbD k = ((s.reg x).getLsbD k ^^ (s.reg y).getLsbD k)) ∧
    FrameBut [.reg x] s t ∧ FrameBut [.reg x] s u ∧ FrameBut [.reg x] s w

/-- ADD Vx, Vy: Vx is the sum modulo 256, and VF is 1 when the sum is above 255 and 0 otherwise, where VF is not the
destination; with x = F VF ends as the sum (R158, R151; the write order is the spec's decision D10, log entry 14). -/
def Obligations.AddSetsResultAndCarry : Prop :=
  ∀ (x y : RegIdx) (s : State), ∃ t : State, exec (.addReg x y) s = .next t ∧
    (t.reg x).toNat = ((s.reg x).toNat + (s.reg y).toNat) % 0x100 ∧
    (x ≠ VF → (t.reg VF).toNat = if (s.reg x).toNat + (s.reg y).toNat > 255 then 1 else 0) ∧
    FrameBut [.reg x, .reg VF] s t

/-- SUB Vx, Vy and SUBN Vx, Vy: Vx is the difference modulo 256, and VF is 1 when the first operand is strictly above the
second and 0 otherwise, where VF is not the destination; with x = F VF ends as the difference (R159, R161, R151; the
write order is the spec's decision D10, log entry 14). -/
def Obligations.SubtractSetsResultAndNoBorrow : Prop :=
  ∀ (x y : RegIdx) (s : State), ∃ t u : State,
    exec (.subReg x y) s = .next t ∧ exec (.subnReg x y) s = .next u ∧
    (t.reg x).toNat = ((s.reg x).toNat + 0x100 - (s.reg y).toNat) % 0x100 ∧
    (u.reg x).toNat = ((s.reg y).toNat + 0x100 - (s.reg x).toNat) % 0x100 ∧
    (x ≠ VF →
      (t.reg VF).toNat = (if (s.reg x).toNat > (s.reg y).toNat then 1 else 0) ∧
      (u.reg VF).toNat = (if (s.reg y).toNat > (s.reg x).toNat then 1 else 0)) ∧
    FrameBut [.reg x, .reg VF] s t ∧ FrameBut [.reg x, .reg VF] s u

/-- SHR and SHL: the shifted value is Vx, or Vy under FROM_VY; Vx is its half or its double modulo 256, and VF the bit
moved out, where VF is not the destination (R160, R162, R151, R13; FROM_VY and the write order are the spec's decisions
D17 and D10, log entries 4 and 14). -/
def Obligations.ShiftsMoveOneBitOut : Prop :=
  ∀ (x y : RegIdx) (s : State), ∃ t u : State,
    exec (.shr x y) s = .next t ∧ exec (.shl x y) s = .next u ∧
    let a := if s.config.shiftVariant = .ignoreVy then (s.reg x).toNat else (s.reg y).toNat
    (t.reg x).toNat = a / 2 ∧ (u.reg x).toNat = a * 2 % 0x100 ∧
    (x ≠ VF → (t.reg VF).toNat = a % 2 ∧ (u.reg VF).toNat = a / 0x80) ∧
    FrameBut [.reg x, .reg VF] s t ∧ FrameBut [.reg x, .reg VF] s u

/-- RND Vx, kk: Vx is the step's random byte under the mask, bit by bit, so it is 0 for kk = 0; nothing else changes
(R163; the random byte is an input under no law, the spec's decision D24, log entries 1 and 24). -/
def Obligations.RandomByteIsMasked : Prop :=
  ∀ (x : RegIdx) (kk : Byte) (s : State), ∃ t : State, exec (.rnd x kk) s = .next t ∧
    (∀ k < 8, (t.reg x).getLsbD k = (s.input.rnd.getLsbD k && kk.getLsbD k)) ∧
    FrameBut [.reg x] s t

/-! ### Index register and memory transfers (42_index_memory.md) -/

/-- LD I, nnn sets I to nnn; LD F, Vx sets it to the address of the glyph of the low nibble of Vx; nothing else changes
(R170, R172). -/
def Obligations.LoadIndexAndGlyphAddress : Prop :=
  ∀ (nnn : Addr) (x : RegIdx) (s : State), ∃ t u : State,
    exec (.ldI nnn) s = .next t ∧ exec (.ldF x) s = .next u ∧
    t.i.toNat = nnn.toNat ∧ u.i.toNat = 5 * ((s.reg x).toNat % 0x10) ∧
    FrameBut [.i] s t ∧ FrameBut [.i] s u

/-- ADD I, Vx adds modulo 2^16, with no flag and no event, also past 0xFFF (R171; the wrap and the untouched VF are the
spec's decisions D8 and D27, log entries 13 and 25). -/
def Obligations.AddIndexWrapsWithNoFlag : Prop :=
  ∀ (x : RegIdx) (s : State), ∃ t : State, exec (.addI x) s = .next t ∧
    t.i.toNat = (s.i.toNat + (s.reg x).toNat) % 0x10000 ∧ FrameBut [.i] s t

/-- LD B, Vx stores the hundreds, tens and units of Vx at u16(I), u16(I + 1) and u16(I + 2); a digit whose address is
above 0xFFF is dropped with one event; nothing else changes, I among it (R173; decisions D8 and D15, log entries 13 and
19). -/
def Obligations.BcdStoresThreeDigits : Prop :=
  ∀ (x : RegIdx) (s : State), s.mem.wf → ∃ t : State, exec (.ldB x) s = .next t ∧
    (∀ k : Fin 3, effAddr s.i k ≤ 0xFFF →
      (t.byteAt (effAddr s.i k)).toNat =
        [(s.reg x).toNat / 100, (s.reg x).toNat / 10 % 10, (s.reg x).toNat % 10].getD k 0) ∧
    t.events = s.events ++ outOfRangeEvents .write [effAddr s.i 0, effAddr s.i 1, effAddr s.i 2] ∧
    FrameExcept (fun p => p = .events ∨ ∃ k < 3, effAddr s.i k ≤ 0xFFF ∧ p = .byte (effAddr s.i k)) s t

/-- For every value of Vx the stored triple (h, t, u) satisfies 100h + 10t + u = Vx, each digit in 0..9 (R178). -/
def Obligations.BcdDigitsRecomposeTheValue : Prop :=
  ∀ (x : RegIdx) (s t : State), s.mem.wf → s.i.toNat + 2 ≤ 0xFFF → exec (.ldB x) s = .next t →
    100 * (t.byteAt s.i.toNat).toNat + 10 * (t.byteAt (s.i.toNat + 1)).toNat + (t.byteAt (s.i.toNat + 2)).toNat =
      (s.reg x).toNat ∧
    ∀ k : Fin 3, (t.byteAt (s.i.toNat + k)).toNat ≤ 9

/-- LD [I], Vx stores V0..Vx at u16(I), u16(I + 1), ...; a byte whose address is above 0xFFF is dropped with one event;
nothing else changes, I among it (R174; decisions D8 and D15, log entries 13 and 19). -/
def Obligations.StoreRegistersWritesV0ToVx : Prop :=
  ∀ (x : RegIdx) (s : State), s.mem.wf → ∃ t : State, exec (.storeRegs x) s = .next t ∧
    (∀ k : RegIdx, k ≤ x → effAddr s.i k ≤ 0xFFF → t.byteAt (effAddr s.i k) = s.reg k) ∧
    t.events = s.events ++ outOfRangeEvents .write (addrsFrom s.i 0 (x.val + 1)) ∧
    FrameExcept (fun p => p = .events ∨ ∃ k ≤ x.val, effAddr s.i k ≤ 0xFFF ∧ p = .byte (effAddr s.i k)) s t

/-- LD Vx, [I] loads V0..Vx from u16(I), u16(I + 1), ...; a byte whose address is above 0xFFF loads 0 with one event;
nothing else changes, the registers above x and I among it (R175; decisions D8 and D15, log entries 13 and 19). -/
def Obligations.LoadRegistersReadsV0ToVx : Prop :=
  ∀ (x : RegIdx) (s : State), ∃ t : State, exec (.loadRegs x) s = .next t ∧
    (∀ k : RegIdx, k ≤ x → t.reg k = if effAddr s.i k ≤ 0xFFF then s.mem.read (effAddr s.i k) else 0) ∧
    t.events = s.events ++ outOfRangeEvents .read (addrsFrom s.i 0 (x.val + 1)) ∧
    FrameExcept (fun p => p = .events ∨ ∃ k : RegIdx, k ≤ x ∧ p = .reg k) s t

/-- Storing V0..Vx and loading them back into a zeroed register file gives the original values, inclusive of index x;
a byte out of range comes back as 0 (R177). -/
def Obligations.StoreThenLoadGivesTheRegistersBack : Prop :=
  ∀ (x : RegIdx) (s t : State), s.mem.wf → exec (.storeRegs x) s = .next t →
    ∃ u : State, exec (.loadRegs x) { t with v := Vector.replicate 16 0 } = .next u ∧
      ∀ k : RegIdx, u.reg k = if k ≤ x ∧ effAddr s.i k ≤ 0xFFF then s.reg k else 0

/-! ### Display (43_display.md) -/

/-- CLS makes every pixel 0 and sets dirty, also on a clear screen; nothing else changes (R190; decision D25, log entry
22). -/
def Obligations.ClearScreenMarksDirty : Prop :=
  ∀ s : State, ∃ t : State, exec .cls s = .next t ∧
    (∀ px py, t.fb.pixel px py = false) ∧ t.dirty = true ∧
    FrameExcept (fun p => p = .dirty ∨ ∃ px py, p = .pixel px py) s t

/-- DRW Vx, Vy, n: every pixel a set sprite bit is on is inverted and no other; VF is 1 when such a pixel was lit and 0
otherwise; dirty is set exactly when some sprite byte is not 0 and never cleared; one event per sprite byte above 0xFFF,
which reads 0; nothing else changes, I among it (R191, R192, R195, R196; decisions D7, D15, D21 and D25, log entries 19,
21, 22 and 23). -/
def Obligations.DrawXorsTheSprite : Prop :=
  ∀ (x y : RegIdx) (n : Nibble) (s : State), ∃ t : State, exec (.drw x y n) s = .next t ∧
    let sprite := (addrsFrom s.i 0 n.toNat).map s.byteAt
    (∀ px py, t.fb.pixel px py = (s.fb.pixel px py ^^ spriteCovers (s.reg x) (s.reg y) sprite px py)) ∧
    (t.reg VF = 0 ∨ t.reg VF = 1) ∧
    (t.reg VF = 1 ↔ ∃ px py, spriteCovers (s.reg x) (s.reg y) sprite px py = true ∧ s.fb.pixel px py = true) ∧
    t.dirty = (s.dirty || sprite.any (· != 0)) ∧
    t.events = s.events ++ outOfRangeEvents .read (addrsFrom s.i 0 n.toNat) ∧
    FrameExcept (fun p => p = .reg VF ∨ p = .dirty ∨ p = .events ∨ ∃ px py, p = .pixel px py) s t

/-- Drawing the same sprite twice at the same coordinates restores the framebuffer, and the second draw sets VF exactly
when some set sprite bit is on a pixel that was unlit before the first (R194, 90_conflicts.md C5). -/
def Obligations.DrawingTwiceRestoresTheScreen : Prop :=
  ∀ (x y : RegIdx) (n : Nibble) (s t : State), exec (.drw x y n) s = .next t →
    t.reg x = s.reg x → t.reg y = s.reg y →
    ∃ u : State, exec (.drw x y n) t = .next u ∧ u.fb = s.fb ∧
      (u.reg VF = 1 ↔
        ∃ px py, spriteCovers (s.reg x) (s.reg y) ((addrsFrom s.i 0 n.toNat).map s.byteAt) px py = true ∧
          s.fb.pixel px py = false)

/-- Wrap-around: on a clear screen a sprite drawn at (Vx, Vy) is the sprite drawn at (0, 0), moved by Vx columns modulo 64
and Vy rows modulo 32; so at (62, 0) its columns 0..7 are columns 62, 63, 0, .., 5 (R193). -/
def Obligations.SpritesWrapAround : Prop :=
  ∀ (x y : RegIdx) (n : Nibble) (s s0 t u : State),
    s.fb = Framebuffer.clear → s0.fb = Framebuffer.clear → s0.i = s.i → s0.mem = s.mem →
    s0.reg x = 0 → s0.reg y = 0 →
    exec (.drw x y n) s = .next t → exec (.drw x y n) s0 = .next u →
    ∀ (px : Fin 64) (py : Fin 32),
      t.fb.pixel (Fin.ofNat 64 ((s.reg x).toNat + px)) (Fin.ofNat 32 ((s.reg y).toNat + py)) = u.fb.pixel px py

/-! ### Input and timers (44_input_timer.md, 60_exceptions.md) -/

/-- SKP Vx skips when key Vx & 0xF of the step's snapshot is pressed, SKNP Vx when it is not; nothing else changes (R210,
R211, R212). -/
def Obligations.KeySkipsTestTheNamedKey : Prop :=
  ∀ (x : RegIdx) (s : State), ∃ t u : State,
    exec (.skp x) s = .next t ∧ exec (.sknp x) s = .next u ∧
    let down := s.input.keyDown.getLsbD ((s.reg x).toNat % 0x10)
    t.pc.toNat = (if down then (s.pc.toNat + 2) % 0x10000 else s.pc.toNat) ∧
    u.pc.toNat = (if down then s.pc.toNat else (s.pc.toNat + 2) % 0x10000) ∧
    FrameBut [.pc] s t ∧ FrameBut [.pc] s u

/-- LD Vx, K: with some key down Vx takes the last-pressed key value masked to 4 bits and nothing else changes; with none
the key wait for Vx begins and nothing else changes (R213; decision D11, log entry 15). -/
def Obligations.LoadKeyStoresOrWaits : Prop :=
  ∀ (x : RegIdx) (s : State), ∃ t : State, exec (.ldVxK x) s = .next t ∧
    if s.input.keyDown = 0 then t.waitKey = some x ∧ FrameBut [.waitKey] s t
    else (t.reg x).toNat = s.input.keyLast % 0x10 ∧ FrameBut [.reg x] s t

/-- While a key wait is pending a step with no key down changes nothing (but uses its snapshot); with a key down it stores
the masked last-pressed key value into the waiting register, ends the wait and completes the tick (R214, R279; decisions
D11, D12 and D30, log entries 15 and 16). -/
def Obligations.KeyWaitPollsUntilAKeyIsDown : Prop :=
  ∀ (s : State) (x : RegIdx), s.waitKey = some x →
    if s.input.keyDown = 0 then ∃ t : State, step s = .next t ∧ FrameBut [.inputs, .draws] s t
    else ∃ t : State, step s = .next (endTick t).useInput ∧
      (t.reg x).toNat = s.input.keyLast % 0x10 ∧ t.waitKey = none ∧ FrameBut [.reg x, .waitKey] s t

/-- LD Vx, DT copies DT into Vx and LD DT, Vx copies Vx into DT; nothing else changes (R215, R216). -/
def Obligations.DelayTimerTransfers : Prop :=
  ∀ (x : RegIdx) (s : State), ∃ t u : State,
    exec (.ldVxDt x) s = .next t ∧ exec (.ldDtVx x) s = .next u ∧
    t.reg x = s.dt ∧ u.dt = s.reg x ∧ FrameBut [.reg x] s t ∧ FrameBut [.dt] s u

/-- A value written to DT in the tick that ends with a 60 Hz event is decremented once at the end of that tick, and a read
of DT in such a tick sees the value before the decrement (R215, R216, R101; the place of the event at the end of the tick
is the spec's decision D13, log entry 17). -/
def Obligations.TimerTransfersPrecedeTheTickEnd : Prop :=
  ∀ (x : RegIdx) (s t : State), s.waitKey = none → s.tickCount + 1 = timerPeriod s.config → step s = .next t →
    (decode s.fetchWord = .ok (.ldDtVx x) → t.dt.toNat = (s.reg x).toNat - 1) ∧
    (decode s.fetchWord = .ok (.ldVxDt x) → t.reg x = s.dt ∧ t.dt.toNat = s.dt.toNat - 1)

/-- LD ST, Vx copies Vx into ST and emits no event, whatever ST was; nothing else changes (R217; decision D14, log entry
18). -/
def Obligations.SoundTimerWriteIsSilent : Prop :=
  ∀ (x : RegIdx) (s : State), ∃ t : State, exec (.ldStVx x) s = .next t ∧ t.st = s.reg x ∧ FrameBut [.st] s t

/-- The 60 Hz event: Redraw with the framebuffer and dirty cleared if dirty; DT and ST down by 1 if nonzero; ToneStart if
ST is nonzero, and ToneStop when it reaches 0; nothing else changes (R242). -/
def Obligations.SixtyHertzEventEffect : Prop :=
  ∀ s : State,
    (timerEvent s).dirty = false ∧
    (timerEvent s).dt.toNat = s.dt.toNat - 1 ∧
    (timerEvent s).st.toNat = s.st.toNat - 1 ∧
    (timerEvent s).events =
      s.events ++ (if s.dirty then [.redraw s.fb] else []) ++
        (if s.st.toNat = 0 then [] else if s.st.toNat = 1 then [.toneStart, .toneStop] else [.toneStart]) ∧
    FrameBut [.dirty, .dt, .st, .events] s (timerEvent s)

/-- The divider: `n` completed ticks bring tick_count from c to (c + n) mod TIMER_PERIOD, and TIMER_PERIOD is CPU_FREQ_HZ/60
rounded up; of TIMER_PERIOD consecutive ticks exactly one runs the 60 Hz event, so DT goes down by one (R10, R241; the
phase is the spec's decision D13, log entry 17). -/
def Obligations.DividerCountsTicks : Prop :=
  ∀ s : State, s.Inv →
    60 * timerPeriod s.config ≥ s.config.cpuFreqHz ∧ 60 * timerPeriod s.config < s.config.cpuFreqHz + 60 ∧
    (∀ n : Nat, (Nat.iterate endTick n s).tickCount = (s.tickCount + n) % timerPeriod s.config) ∧
    (Nat.iterate endTick (timerPeriod s.config) s).dt.toNat = s.dt.toNat - 1

/-- DT decays: after n events it is down by n, stopping at 0, and no event depends on it (R244). -/
def Obligations.DelayTimerDecaysToZero : Prop :=
  ∀ (s : State) (n : Nat) (d : Byte),
    (Nat.iterate timerEvent n s).dt.toNat = s.dt.toNat - n ∧
    (timerEvent { s with dt := d }).events = (timerEvent s).events

/-- An event with ST > 0 emits ToneStart, takes 1 from ST, and emits ToneStop if ST is then 0; with ST = 0 it emits no tone
signal. So a value ST > 0 gives as many events that each emit ToneStart, the last of which also emits ToneStop (R245). -/
def Obligations.SoundTimerEmitsTheTone : Prop :=
  ∀ s : State,
    let tones := fun t : State => t.events.filter fun e => e = .toneStart ∨ e = .toneStop
    (timerEvent s).st.toNat = s.st.toNat - 1 ∧
    tones (timerEvent s) =
      tones s ++ (if s.st = 0 then [] else if s.st = 1 then [.toneStart, .toneStop] else [.toneStart]) ∧
    (Nat.iterate timerEvent s.st.toNat s).st = 0 ∧
    tones (Nat.iterate timerEvent s.st.toNat s) =
      tones s ++ (if s.st = 0 then [] else List.replicate s.st.toNat .toneStart ++ [.toneStop])

/-- The end of a tick is, on the tick that brings the count to TIMER_PERIOD, the whole 60 Hz event with the count
restarted at 0, and on every other tick one more on the count; nothing else in either case (R101, R241; the counter and
the place of the event at the end of the tick are the spec's decision D13, log entry 17). -/
def Obligations.EndTickRunsTheSixtyHertzEvent : Prop :=
  ∀ s : State,
    endTick s =
      if s.tickCount + 1 = timerPeriod s.config then { timerEvent s with tickCount := 0 }
      else { s with tickCount := s.tickCount + 1 }
end

