-- ==== Sys2Proof/Laws/Memory.lean ====
section
/-! SUPPORT. What reading, writing and the canonical form of memory do (20_memory.md R60, R66, R67, R74). -/

namespace Sys2Proof.Machine

@[simp] theorem Memory.read_nil (a : Nat) : Memory.read [] a = Memory.unlisted a := rfl

@[simp] theorem Memory.read_cons (k : Nat) (b : Byte) (m : Memory) (a : Nat) :
    Memory.read ((k, b) :: m) a = if k = a then b else Memory.read m a := rfl

/-- An address below every listed one reads as unlisted. -/
theorem Memory.read_of_lt_all {m : Memory} {a : Nat} (h : ∀ c ∈ m, a < c.1) :
    m.read a = Memory.unlisted a := by
  induction m with
  | nil => rfl
  | cons c m ih =>
    obtain ⟨k, b⟩ := c
    have hk : a < k := h (k, b) (by simp)
    rw [Memory.read_cons, if_neg (by omega), ih fun c hc => h c (by simp [hc])]

/-- Putting a byte in front changes no other address. -/
theorem Memory.read_putFront_ne {m : Memory} {a c : Nat} (b : Byte) (h : c ≠ a) :
    (Memory.putFront a b m).read c = m.read c := by
  unfold Memory.putFront
  split
  · rfl
  · rw [Memory.read_cons, if_neg (Ne.symm h)]

/-- Putting a byte in front of a memory that lists only higher addresses makes it the byte read there. -/
theorem Memory.read_putFront_self {m : Memory} {a : Nat} (b : Byte) (h : ∀ c ∈ m, a < c.1) :
    (Memory.putFront a b m).read a = b := by
  unfold Memory.putFront
  split
  · next hb => rw [Memory.read_of_lt_all h, hb]
  · simp

/-- A write leaves every other address alone (R74). -/
theorem Memory.read_write_ne (m : Memory) {a c : Nat} (b : Byte) (h : c ≠ a) :
    (m.write a b).read c = m.read c := by
  induction m with
  | nil => exact Memory.read_putFront_ne b h
  | cons e m ih =>
    obtain ⟨k, d⟩ := e
    unfold Memory.write
    split
    · exact Memory.read_putFront_ne b h
    · split
      · next hk => rw [Memory.read_putFront_ne b h, Memory.read_cons, if_neg (by omega)]
      · simp [ih]

/-- A read after a write to the same address gives the byte written (R74). -/
theorem Memory.read_write_self {m : Memory} (hm : m.wf) (a : Nat) (b : Byte) : (m.write a b).read a = b := by
  obtain ⟨hs, -⟩ := hm
  induction m with
  | nil => exact Memory.read_putFront_self b (by simp)
  | cons e m ih =>
    obtain ⟨k, d⟩ := e
    rw [List.pairwise_cons] at hs
    unfold Memory.write
    split
    · next hk =>
      refine Memory.read_putFront_self b fun c hc => ?_
      rcases List.mem_cons.mp hc with rfl | hc
      · exact hk
      · exact Nat.lt_trans hk (hs.1 c hc)
    · split
      · next hk => exact Memory.read_putFront_self b fun c hc => by have := hs.1 c hc; simp at this; omega
      · next hk => rw [Memory.read_cons, if_neg (by omega), ih hs.2]

/-- Reading after a write, in one line. -/
theorem Memory.read_write {m : Memory} (hm : m.wf) (a c : Nat) (b : Byte) :
    (m.write a b).read c = if c = a then b else m.read c := by
  split
  · next h => rw [h, Memory.read_write_self hm]
  · next h => exact Memory.read_write_ne m b h

/-- The addresses a write leaves listed are the ones listed before, and the one written. -/
theorem Memory.mem_write {m : Memory} {a : Nat} {b : Byte} {c : Host.Cell} (h : c ∈ m.write a b) :
    c ∈ m ∨ (c = (a, b) ∧ b ≠ Memory.unlisted a) := by
  have hfront : ∀ n : Memory, c ∈ Memory.putFront a b n → c ∈ n ∨ (c = (a, b) ∧ b ≠ Memory.unlisted a) := by
    intro n hn
    unfold Memory.putFront at hn
    split at hn
    · exact .inl hn
    · next hb => rcases List.mem_cons.mp hn with rfl | hn
                 · exact .inr ⟨rfl, hb⟩
                 · exact .inl hn
  induction m with
  | nil => exact hfront [] h
  | cons e m ih =>
    obtain ⟨k, d⟩ := e
    unfold Memory.write at h
    split at h
    · exact hfront _ h
    · split at h
      · exact (hfront _ h).imp (fun hc => List.mem_cons_of_mem _ hc) id
      · rcases List.mem_cons.mp h with rfl | h
        · exact .inl (by simp)
        · exact (ih h).imp (fun hc => List.mem_cons_of_mem _ hc) id

/-- Every write inside memory keeps the canonical form. -/
theorem Memory.write_wf {m : Memory} (hm : m.wf) {a : Nat} (ha : a ≤ memTop) (b : Byte) : (m.write a b).wf := by
  refine ⟨?_, fun c hc => ?_⟩
  · have hs := hm.1
    clear hm
    have hfront : ∀ n : Memory, n.Pairwise (fun c d => c.1 < d.1) → (∀ c ∈ n, a < c.1) →
        (Memory.putFront a b n).Pairwise (fun c d => c.1 < d.1) := by
      intro n hn hlt
      unfold Memory.putFront
      split
      · exact hn
      · exact List.pairwise_cons.mpr ⟨hlt, hn⟩
    induction m with
    | nil => exact hfront [] .nil (by simp)
    | cons e m ih =>
      obtain ⟨k, d⟩ := e
      have hs' := List.pairwise_cons.mp hs
      unfold Memory.write
      split
      · next hk =>
        refine hfront _ hs fun c hc => ?_
        rcases List.mem_cons.mp hc with rfl | hc
        · exact hk
        · exact Nat.lt_trans hk (hs'.1 c hc)
      · split
        · next hk => exact hfront _ hs'.2 fun c hc => by have := hs'.1 c hc; simp at this; omega
        · next h1 h2 =>
          refine List.pairwise_cons.mpr ⟨fun c hc => ?_, ih hs'.2⟩
          rcases Memory.mem_write hc with hc | ⟨rfl, -⟩
          · exact hs'.1 c hc
          · show k < a; omega
  · rcases Memory.mem_write hc with hc | ⟨rfl, hb⟩
    · exact hm.2 c hc
    · exact ⟨ha, hb⟩

/-- The empty list, memory at reset, is canonical. -/
theorem Memory.wf_nil : Memory.wf [] := ⟨.nil, by simp⟩

/-! ### The default font -/

theorem defaultFont_length : defaultFont.length = 80 := by decide

/-- An address after the font that is not listed reads 0 (R64). -/
theorem Memory.unlisted_of_ge {a : Nat} (h : 80 ≤ a) : Memory.unlisted a = 0 := by
  have hl : defaultFont.length ≤ a - fontBase := by rw [defaultFont_length]; exact h
  simp [Memory.unlisted, List.getD, List.getElem?_eq_none hl]

end Sys2Proof.Machine
end

