-- ==== Sys2Proof/Laws/State.lean ====
section
/-! SUPPORT. One lemma per field per update of the state, true by definition, so that no later proof unfolds a record
update; and the accessors' lemmas. -/

namespace Sys2Proof.Machine

variable (s : State)

/-! ### setReg -/

@[simp] theorem setReg_v (x : RegIdx) (b : Byte) : (s.setReg x b).v = s.v.set x.val b x.isLt := rfl
@[simp] theorem setReg_i (x : RegIdx) (b : Byte) : (s.setReg x b).i = s.i := rfl
@[simp] theorem setReg_pc (x : RegIdx) (b : Byte) : (s.setReg x b).pc = s.pc := rfl
@[simp] theorem setReg_sp (x : RegIdx) (b : Byte) : (s.setReg x b).sp = s.sp := rfl
@[simp] theorem setReg_stack (x : RegIdx) (b : Byte) : (s.setReg x b).stack = s.stack := rfl
@[simp] theorem setReg_dt (x : RegIdx) (b : Byte) : (s.setReg x b).dt = s.dt := rfl
@[simp] theorem setReg_st (x : RegIdx) (b : Byte) : (s.setReg x b).st = s.st := rfl
@[simp] theorem setReg_mem (x : RegIdx) (b : Byte) : (s.setReg x b).mem = s.mem := rfl
@[simp] theorem setReg_fb (x : RegIdx) (b : Byte) : (s.setReg x b).fb = s.fb := rfl
@[simp] theorem setReg_dirty (x : RegIdx) (b : Byte) : (s.setReg x b).dirty = s.dirty := rfl
@[simp] theorem setReg_tickCount (x : RegIdx) (b : Byte) : (s.setReg x b).tickCount = s.tickCount := rfl
@[simp] theorem setReg_waitKey (x : RegIdx) (b : Byte) : (s.setReg x b).waitKey = s.waitKey := rfl
@[simp] theorem setReg_config (x : RegIdx) (b : Byte) : (s.setReg x b).config = s.config := rfl
@[simp] theorem setReg_inputs (x : RegIdx) (b : Byte) : (s.setReg x b).inputs = s.inputs := rfl
@[simp] theorem setReg_draws (x : RegIdx) (b : Byte) : (s.setReg x b).draws = s.draws := rfl
@[simp] theorem setReg_events (x : RegIdx) (b : Byte) : (s.setReg x b).events = s.events := rfl
@[simp] theorem setReg_byteAt (x : RegIdx) (b : Byte) (a : Nat) : (s.setReg x b).byteAt a = s.byteAt a := rfl
@[simp] theorem setReg_stackAt (x : RegIdx) (b : Byte) (j : Fin 16) : (s.setReg x b).stackAt j = s.stackAt j := rfl
@[simp] theorem setReg_input (x : RegIdx) (b : Byte) : (s.setReg x b).input = s.input := rfl

/-! ### advancePc -/

@[simp] theorem advancePc_v : (s.advancePc).v = s.v := rfl
@[simp] theorem advancePc_i : (s.advancePc).i = s.i := rfl
@[simp] theorem advancePc_pc : (s.advancePc).pc = s.pc + 2 := rfl
@[simp] theorem advancePc_sp : (s.advancePc).sp = s.sp := rfl
@[simp] theorem advancePc_stack : (s.advancePc).stack = s.stack := rfl
@[simp] theorem advancePc_dt : (s.advancePc).dt = s.dt := rfl
@[simp] theorem advancePc_st : (s.advancePc).st = s.st := rfl
@[simp] theorem advancePc_mem : (s.advancePc).mem = s.mem := rfl
@[simp] theorem advancePc_fb : (s.advancePc).fb = s.fb := rfl
@[simp] theorem advancePc_dirty : (s.advancePc).dirty = s.dirty := rfl
@[simp] theorem advancePc_tickCount : (s.advancePc).tickCount = s.tickCount := rfl
@[simp] theorem advancePc_waitKey : (s.advancePc).waitKey = s.waitKey := rfl
@[simp] theorem advancePc_config : (s.advancePc).config = s.config := rfl
@[simp] theorem advancePc_inputs : (s.advancePc).inputs = s.inputs := rfl
@[simp] theorem advancePc_draws : (s.advancePc).draws = s.draws := rfl
@[simp] theorem advancePc_events : (s.advancePc).events = s.events := rfl
@[simp] theorem advancePc_reg (k : RegIdx) : (s.advancePc).reg k = s.reg k := rfl
@[simp] theorem advancePc_byteAt (a : Nat) : (s.advancePc).byteAt a = s.byteAt a := rfl
@[simp] theorem advancePc_stackAt (j : Fin 16) : (s.advancePc).stackAt j = s.stackAt j := rfl
@[simp] theorem advancePc_input : (s.advancePc).input = s.input := rfl

/-! ### skipIf -/

@[simp] theorem skipIf_v (c : Bool) : (s.skipIf c).v = s.v := rfl
@[simp] theorem skipIf_i (c : Bool) : (s.skipIf c).i = s.i := rfl
@[simp] theorem skipIf_pc (c : Bool) : (s.skipIf c).pc = if c then s.pc + 2 else s.pc := rfl
@[simp] theorem skipIf_sp (c : Bool) : (s.skipIf c).sp = s.sp := rfl
@[simp] theorem skipIf_stack (c : Bool) : (s.skipIf c).stack = s.stack := rfl
@[simp] theorem skipIf_dt (c : Bool) : (s.skipIf c).dt = s.dt := rfl
@[simp] theorem skipIf_st (c : Bool) : (s.skipIf c).st = s.st := rfl
@[simp] theorem skipIf_mem (c : Bool) : (s.skipIf c).mem = s.mem := rfl
@[simp] theorem skipIf_fb (c : Bool) : (s.skipIf c).fb = s.fb := rfl
@[simp] theorem skipIf_dirty (c : Bool) : (s.skipIf c).dirty = s.dirty := rfl
@[simp] theorem skipIf_tickCount (c : Bool) : (s.skipIf c).tickCount = s.tickCount := rfl
@[simp] theorem skipIf_waitKey (c : Bool) : (s.skipIf c).waitKey = s.waitKey := rfl
@[simp] theorem skipIf_config (c : Bool) : (s.skipIf c).config = s.config := rfl
@[simp] theorem skipIf_inputs (c : Bool) : (s.skipIf c).inputs = s.inputs := rfl
@[simp] theorem skipIf_draws (c : Bool) : (s.skipIf c).draws = s.draws := rfl
@[simp] theorem skipIf_events (c : Bool) : (s.skipIf c).events = s.events := rfl
@[simp] theorem skipIf_reg (c : Bool) (k : RegIdx) : (s.skipIf c).reg k = s.reg k := rfl
@[simp] theorem skipIf_byteAt (c : Bool) (a : Nat) : (s.skipIf c).byteAt a = s.byteAt a := rfl
@[simp] theorem skipIf_stackAt (c : Bool) (j : Fin 16) : (s.skipIf c).stackAt j = s.stackAt j := rfl
@[simp] theorem skipIf_input (c : Bool) : (s.skipIf c).input = s.input := rfl

/-! ### emit -/

@[simp] theorem emit_v (e : Event) : (s.emit e).v = s.v := rfl
@[simp] theorem emit_i (e : Event) : (s.emit e).i = s.i := rfl
@[simp] theorem emit_pc (e : Event) : (s.emit e).pc = s.pc := rfl
@[simp] theorem emit_sp (e : Event) : (s.emit e).sp = s.sp := rfl
@[simp] theorem emit_stack (e : Event) : (s.emit e).stack = s.stack := rfl
@[simp] theorem emit_dt (e : Event) : (s.emit e).dt = s.dt := rfl
@[simp] theorem emit_st (e : Event) : (s.emit e).st = s.st := rfl
@[simp] theorem emit_mem (e : Event) : (s.emit e).mem = s.mem := rfl
@[simp] theorem emit_fb (e : Event) : (s.emit e).fb = s.fb := rfl
@[simp] theorem emit_dirty (e : Event) : (s.emit e).dirty = s.dirty := rfl
@[simp] theorem emit_tickCount (e : Event) : (s.emit e).tickCount = s.tickCount := rfl
@[simp] theorem emit_waitKey (e : Event) : (s.emit e).waitKey = s.waitKey := rfl
@[simp] theorem emit_config (e : Event) : (s.emit e).config = s.config := rfl
@[simp] theorem emit_inputs (e : Event) : (s.emit e).inputs = s.inputs := rfl
@[simp] theorem emit_draws (e : Event) : (s.emit e).draws = s.draws := rfl
@[simp] theorem emit_events (e : Event) : (s.emit e).events = s.events ++ [e] := rfl
@[simp] theorem emit_reg (e : Event) (k : RegIdx) : (s.emit e).reg k = s.reg k := rfl
@[simp] theorem emit_byteAt (e : Event) (a : Nat) : (s.emit e).byteAt a = s.byteAt a := rfl
@[simp] theorem emit_stackAt (e : Event) (j : Fin 16) : (s.emit e).stackAt j = s.stackAt j := rfl
@[simp] theorem emit_input (e : Event) : (s.emit e).input = s.input := rfl

/-! ### unknownInstruction -/

@[simp] theorem unknownInstruction_v (w : Word) : (s.unknownInstruction w).v = s.v := rfl
@[simp] theorem unknownInstruction_i (w : Word) : (s.unknownInstruction w).i = s.i := rfl
@[simp] theorem unknownInstruction_pc (w : Word) : (s.unknownInstruction w).pc = s.pc := rfl
@[simp] theorem unknownInstruction_sp (w : Word) : (s.unknownInstruction w).sp = s.sp := rfl
@[simp] theorem unknownInstruction_stack (w : Word) : (s.unknownInstruction w).stack = s.stack := rfl
@[simp] theorem unknownInstruction_dt (w : Word) : (s.unknownInstruction w).dt = s.dt := rfl
@[simp] theorem unknownInstruction_st (w : Word) : (s.unknownInstruction w).st = s.st := rfl
@[simp] theorem unknownInstruction_mem (w : Word) : (s.unknownInstruction w).mem = s.mem := rfl
@[simp] theorem unknownInstruction_fb (w : Word) : (s.unknownInstruction w).fb = s.fb := rfl
@[simp] theorem unknownInstruction_dirty (w : Word) : (s.unknownInstruction w).dirty = s.dirty := rfl
@[simp] theorem unknownInstruction_tickCount (w : Word) : (s.unknownInstruction w).tickCount = s.tickCount := rfl
@[simp] theorem unknownInstruction_waitKey (w : Word) : (s.unknownInstruction w).waitKey = s.waitKey := rfl
@[simp] theorem unknownInstruction_config (w : Word) : (s.unknownInstruction w).config = s.config := rfl
@[simp] theorem unknownInstruction_inputs (w : Word) : (s.unknownInstruction w).inputs = s.inputs := rfl
@[simp] theorem unknownInstruction_draws (w : Word) : (s.unknownInstruction w).draws = s.draws := rfl
@[simp] theorem unknownInstruction_events (w : Word) : (s.unknownInstruction w).events = s.events ++ [.unknownInstruction w] := rfl
@[simp] theorem unknownInstruction_reg (w : Word) (k : RegIdx) : (s.unknownInstruction w).reg k = s.reg k := rfl
@[simp] theorem unknownInstruction_byteAt (w : Word) (a : Nat) : (s.unknownInstruction w).byteAt a = s.byteAt a := rfl
@[simp] theorem unknownInstruction_stackAt (w : Word) (j : Fin 16) : (s.unknownInstruction w).stackAt j = s.stackAt j := rfl
@[simp] theorem unknownInstruction_input (w : Word) : (s.unknownInstruction w).input = s.input := rfl

/-! ### pushCall -/

@[simp] theorem pushCall_v (r : Word) : (s.pushCall r).v = s.v := rfl
@[simp] theorem pushCall_i (r : Word) : (s.pushCall r).i = s.i := rfl
@[simp] theorem pushCall_pc (r : Word) : (s.pushCall r).pc = s.pc := rfl
@[simp] theorem pushCall_sp (r : Word) : (s.pushCall r).sp = s.sp + 1 := rfl
@[simp] theorem pushCall_stack (r : Word) : (s.pushCall r).stack = s.stack.set (stackSlot (s.sp + 1)).val r (stackSlot (s.sp + 1)).isLt := rfl
@[simp] theorem pushCall_dt (r : Word) : (s.pushCall r).dt = s.dt := rfl
@[simp] theorem pushCall_st (r : Word) : (s.pushCall r).st = s.st := rfl
@[simp] theorem pushCall_mem (r : Word) : (s.pushCall r).mem = s.mem := rfl
@[simp] theorem pushCall_fb (r : Word) : (s.pushCall r).fb = s.fb := rfl
@[simp] theorem pushCall_dirty (r : Word) : (s.pushCall r).dirty = s.dirty := rfl
@[simp] theorem pushCall_tickCount (r : Word) : (s.pushCall r).tickCount = s.tickCount := rfl
@[simp] theorem pushCall_waitKey (r : Word) : (s.pushCall r).waitKey = s.waitKey := rfl
@[simp] theorem pushCall_config (r : Word) : (s.pushCall r).config = s.config := rfl
@[simp] theorem pushCall_inputs (r : Word) : (s.pushCall r).inputs = s.inputs := rfl
@[simp] theorem pushCall_draws (r : Word) : (s.pushCall r).draws = s.draws := rfl
@[simp] theorem pushCall_events (r : Word) : (s.pushCall r).events = s.events := rfl
@[simp] theorem pushCall_reg (r : Word) (k : RegIdx) : (s.pushCall r).reg k = s.reg k := rfl
@[simp] theorem pushCall_byteAt (r : Word) (a : Nat) : (s.pushCall r).byteAt a = s.byteAt a := rfl
@[simp] theorem pushCall_input (r : Word) : (s.pushCall r).input = s.input := rfl

/-! ### popCall -/

@[simp] theorem popCall_v : (s.popCall.2).v = s.v := rfl
@[simp] theorem popCall_i : (s.popCall.2).i = s.i := rfl
@[simp] theorem popCall_pc : (s.popCall.2).pc = s.pc := rfl
@[simp] theorem popCall_sp : (s.popCall.2).sp = s.sp - 1 := rfl
@[simp] theorem popCall_stack : (s.popCall.2).stack = s.stack := rfl
@[simp] theorem popCall_dt : (s.popCall.2).dt = s.dt := rfl
@[simp] theorem popCall_st : (s.popCall.2).st = s.st := rfl
@[simp] theorem popCall_mem : (s.popCall.2).mem = s.mem := rfl
@[simp] theorem popCall_fb : (s.popCall.2).fb = s.fb := rfl
@[simp] theorem popCall_dirty : (s.popCall.2).dirty = s.dirty := rfl
@[simp] theorem popCall_tickCount : (s.popCall.2).tickCount = s.tickCount := rfl
@[simp] theorem popCall_waitKey : (s.popCall.2).waitKey = s.waitKey := rfl
@[simp] theorem popCall_config : (s.popCall.2).config = s.config := rfl
@[simp] theorem popCall_inputs : (s.popCall.2).inputs = s.inputs := rfl
@[simp] theorem popCall_draws : (s.popCall.2).draws = s.draws := rfl
@[simp] theorem popCall_events : (s.popCall.2).events = s.events := rfl
@[simp] theorem popCall_reg (k : RegIdx) : (s.popCall.2).reg k = s.reg k := rfl
@[simp] theorem popCall_byteAt (a : Nat) : (s.popCall.2).byteAt a = s.byteAt a := rfl
@[simp] theorem popCall_stackAt (j : Fin 16) : (s.popCall.2).stackAt j = s.stackAt j := rfl
@[simp] theorem popCall_input : (s.popCall.2).input = s.input := rfl

/-! ### useInput -/

@[simp] theorem useInput_v : (s.useInput).v = s.v := rfl
@[simp] theorem useInput_i : (s.useInput).i = s.i := rfl
@[simp] theorem useInput_pc : (s.useInput).pc = s.pc := rfl
@[simp] theorem useInput_sp : (s.useInput).sp = s.sp := rfl
@[simp] theorem useInput_stack : (s.useInput).stack = s.stack := rfl
@[simp] theorem useInput_dt : (s.useInput).dt = s.dt := rfl
@[simp] theorem useInput_st : (s.useInput).st = s.st := rfl
@[simp] theorem useInput_mem : (s.useInput).mem = s.mem := rfl
@[simp] theorem useInput_fb : (s.useInput).fb = s.fb := rfl
@[simp] theorem useInput_dirty : (s.useInput).dirty = s.dirty := rfl
@[simp] theorem useInput_tickCount : (s.useInput).tickCount = s.tickCount := rfl
@[simp] theorem useInput_waitKey : (s.useInput).waitKey = s.waitKey := rfl
@[simp] theorem useInput_config : (s.useInput).config = s.config := rfl
@[simp] theorem useInput_inputs : (s.useInput).inputs = s.inputs.tail := rfl
@[simp] theorem useInput_draws : (s.useInput).draws = s.draws + 1 := rfl
@[simp] theorem useInput_events : (s.useInput).events = s.events := rfl
@[simp] theorem useInput_reg (k : RegIdx) : (s.useInput).reg k = s.reg k := rfl
@[simp] theorem useInput_byteAt (a : Nat) : (s.useInput).byteAt a = s.byteAt a := rfl
@[simp] theorem useInput_stackAt (j : Fin 16) : (s.useInput).stackAt j = s.stackAt j := rfl

/-! ### writeFlagThenResult -/

@[simp] theorem writeFlagThenResult_i (x : RegIdx) (f : Bool) (b : Byte) : (s.writeFlagThenResult x f b).i = s.i := rfl
@[simp] theorem writeFlagThenResult_pc (x : RegIdx) (f : Bool) (b : Byte) : (s.writeFlagThenResult x f b).pc = s.pc := rfl
@[simp] theorem writeFlagThenResult_sp (x : RegIdx) (f : Bool) (b : Byte) : (s.writeFlagThenResult x f b).sp = s.sp := rfl
@[simp] theorem writeFlagThenResult_stack (x : RegIdx) (f : Bool) (b : Byte) : (s.writeFlagThenResult x f b).stack = s.stack := rfl
@[simp] theorem writeFlagThenResult_dt (x : RegIdx) (f : Bool) (b : Byte) : (s.writeFlagThenResult x f b).dt = s.dt := rfl
@[simp] theorem writeFlagThenResult_st (x : RegIdx) (f : Bool) (b : Byte) : (s.writeFlagThenResult x f b).st = s.st := rfl
@[simp] theorem writeFlagThenResult_mem (x : RegIdx) (f : Bool) (b : Byte) : (s.writeFlagThenResult x f b).mem = s.mem := rfl
@[simp] theorem writeFlagThenResult_fb (x : RegIdx) (f : Bool) (b : Byte) : (s.writeFlagThenResult x f b).fb = s.fb := rfl
@[simp] theorem writeFlagThenResult_dirty (x : RegIdx) (f : Bool) (b : Byte) : (s.writeFlagThenResult x f b).dirty = s.dirty := rfl
@[simp] theorem writeFlagThenResult_tickCount (x : RegIdx) (f : Bool) (b : Byte) : (s.writeFlagThenResult x f b).tickCount = s.tickCount := rfl
@[simp] theorem writeFlagThenResult_waitKey (x : RegIdx) (f : Bool) (b : Byte) : (s.writeFlagThenResult x f b).waitKey = s.waitKey := rfl
@[simp] theorem writeFlagThenResult_config (x : RegIdx) (f : Bool) (b : Byte) : (s.writeFlagThenResult x f b).config = s.config := rfl
@[simp] theorem writeFlagThenResult_inputs (x : RegIdx) (f : Bool) (b : Byte) : (s.writeFlagThenResult x f b).inputs = s.inputs := rfl
@[simp] theorem writeFlagThenResult_draws (x : RegIdx) (f : Bool) (b : Byte) : (s.writeFlagThenResult x f b).draws = s.draws := rfl
@[simp] theorem writeFlagThenResult_events (x : RegIdx) (f : Bool) (b : Byte) : (s.writeFlagThenResult x f b).events = s.events := rfl
@[simp] theorem writeFlagThenResult_byteAt (x : RegIdx) (f : Bool) (b : Byte) (a : Nat) : (s.writeFlagThenResult x f b).byteAt a = s.byteAt a := rfl
@[simp] theorem writeFlagThenResult_stackAt (x : RegIdx) (f : Bool) (b : Byte) (j : Fin 16) : (s.writeFlagThenResult x f b).stackAt j = s.stackAt j := rfl
@[simp] theorem writeFlagThenResult_input (x : RegIdx) (f : Bool) (b : Byte) : (s.writeFlagThenResult x f b).input = s.input := rfl

/-! ### storeKey -/

@[simp] theorem storeKey_v (x : RegIdx) : (s.storeKey x).v = s.v.set x.val s.input.key x.isLt := rfl
@[simp] theorem storeKey_i (x : RegIdx) : (s.storeKey x).i = s.i := rfl
@[simp] theorem storeKey_pc (x : RegIdx) : (s.storeKey x).pc = s.pc := rfl
@[simp] theorem storeKey_sp (x : RegIdx) : (s.storeKey x).sp = s.sp := rfl
@[simp] theorem storeKey_stack (x : RegIdx) : (s.storeKey x).stack = s.stack := rfl
@[simp] theorem storeKey_dt (x : RegIdx) : (s.storeKey x).dt = s.dt := rfl
@[simp] theorem storeKey_st (x : RegIdx) : (s.storeKey x).st = s.st := rfl
@[simp] theorem storeKey_mem (x : RegIdx) : (s.storeKey x).mem = s.mem := rfl
@[simp] theorem storeKey_fb (x : RegIdx) : (s.storeKey x).fb = s.fb := rfl
@[simp] theorem storeKey_dirty (x : RegIdx) : (s.storeKey x).dirty = s.dirty := rfl
@[simp] theorem storeKey_tickCount (x : RegIdx) : (s.storeKey x).tickCount = s.tickCount := rfl
@[simp] theorem storeKey_waitKey (x : RegIdx) : (s.storeKey x).waitKey = none := rfl
@[simp] theorem storeKey_config (x : RegIdx) : (s.storeKey x).config = s.config := rfl
@[simp] theorem storeKey_inputs (x : RegIdx) : (s.storeKey x).inputs = s.inputs := rfl
@[simp] theorem storeKey_draws (x : RegIdx) : (s.storeKey x).draws = s.draws := rfl
@[simp] theorem storeKey_events (x : RegIdx) : (s.storeKey x).events = s.events := rfl
@[simp] theorem storeKey_byteAt (x : RegIdx) (a : Nat) : (s.storeKey x).byteAt a = s.byteAt a := rfl
@[simp] theorem storeKey_stackAt (x : RegIdx) (j : Fin 16) : (s.storeKey x).stackAt j = s.stackAt j := rfl
@[simp] theorem storeKey_input (x : RegIdx) : (s.storeKey x).input = s.input := rfl

/-! ### timerEvent -/

@[simp] theorem timerEvent_v : (timerEvent s).v = s.v := rfl
@[simp] theorem timerEvent_i : (timerEvent s).i = s.i := rfl
@[simp] theorem timerEvent_pc : (timerEvent s).pc = s.pc := rfl
@[simp] theorem timerEvent_sp : (timerEvent s).sp = s.sp := rfl
@[simp] theorem timerEvent_stack : (timerEvent s).stack = s.stack := rfl
@[simp] theorem timerEvent_dt : (timerEvent s).dt = decay s.dt := rfl
@[simp] theorem timerEvent_st : (timerEvent s).st = decay s.st := rfl
@[simp] theorem timerEvent_mem : (timerEvent s).mem = s.mem := rfl
@[simp] theorem timerEvent_fb : (timerEvent s).fb = s.fb := rfl
@[simp] theorem timerEvent_dirty : (timerEvent s).dirty = false := rfl
@[simp] theorem timerEvent_tickCount : (timerEvent s).tickCount = s.tickCount := rfl
@[simp] theorem timerEvent_waitKey : (timerEvent s).waitKey = s.waitKey := rfl
@[simp] theorem timerEvent_config : (timerEvent s).config = s.config := rfl
@[simp] theorem timerEvent_inputs : (timerEvent s).inputs = s.inputs := rfl
@[simp] theorem timerEvent_draws : (timerEvent s).draws = s.draws := rfl
@[simp] theorem timerEvent_events : (timerEvent s).events = s.events ++ redrawEvents s ++ toneEvents s.st := rfl
@[simp] theorem timerEvent_reg (k : RegIdx) : (timerEvent s).reg k = s.reg k := rfl
@[simp] theorem timerEvent_byteAt (a : Nat) : (timerEvent s).byteAt a = s.byteAt a := rfl
@[simp] theorem timerEvent_stackAt (j : Fin 16) : (timerEvent s).stackAt j = s.stackAt j := rfl
@[simp] theorem timerEvent_input : (timerEvent s).input = s.input := rfl

/-! ### endTick -/

@[simp] theorem endTick_v : (endTick s).v = s.v := rfl
@[simp] theorem endTick_i : (endTick s).i = s.i := rfl
@[simp] theorem endTick_pc : (endTick s).pc = s.pc := rfl
@[simp] theorem endTick_sp : (endTick s).sp = s.sp := rfl
@[simp] theorem endTick_stack : (endTick s).stack = s.stack := rfl
@[simp] theorem endTick_mem : (endTick s).mem = s.mem := rfl
@[simp] theorem endTick_fb : (endTick s).fb = s.fb := rfl
@[simp] theorem endTick_waitKey : (endTick s).waitKey = s.waitKey := rfl
@[simp] theorem endTick_config : (endTick s).config = s.config := rfl
@[simp] theorem endTick_inputs : (endTick s).inputs = s.inputs := rfl
@[simp] theorem endTick_draws : (endTick s).draws = s.draws := rfl
@[simp] theorem endTick_reg (k : RegIdx) : (endTick s).reg k = s.reg k := rfl
@[simp] theorem endTick_byteAt (a : Nat) : (endTick s).byteAt a = s.byteAt a := rfl
@[simp] theorem endTick_stackAt (j : Fin 16) : (endTick s).stackAt j = s.stackAt j := rfl
@[simp] theorem endTick_input : (endTick s).input = s.input := rfl

/-! ### Reading a register after a write -/

theorem reg_setReg (x k : RegIdx) (b : Byte) : (s.setReg x b).reg k = if k = x then b else s.reg k := by
  simp only [State.reg, State.setReg, Vector.get_eq_getElem, Vector.getElem_set, Fin.ext_iff]
  split <;> split <;> first | rfl | omega

@[simp] theorem reg_setReg_self (x : RegIdx) (b : Byte) : (s.setReg x b).reg x = b := by
  simp [reg_setReg]

theorem reg_setReg_ne {x k : RegIdx} (h : k ≠ x) (b : Byte) : (s.setReg x b).reg k = s.reg k := by
  simp [reg_setReg, h]

/-- The result register holds the result, also when it is `VF` (41_alu.md R151). -/
@[simp] theorem reg_writeFlagThenResult_self (x : RegIdx) (f : Bool) (b : Byte) :
    (s.writeFlagThenResult x f b).reg x = b := by
  simp [State.writeFlagThenResult]

/-- `VF` holds the flag when it is not the result register (R151). -/
theorem reg_writeFlagThenResult_VF {x : RegIdx} (h : x ≠ VF) (f : Bool) (b : Byte) :
    (s.writeFlagThenResult x f b).reg VF = flagByte f := by
  simp [State.writeFlagThenResult, reg_setReg_ne _ h.symm]

/-- Every other register is unchanged. -/
theorem reg_writeFlagThenResult_ne {x k : RegIdx} (hx : k ≠ x) (hf : k ≠ VF) (f : Bool) (b : Byte) :
    (s.writeFlagThenResult x f b).reg k = s.reg k := by
  simp [State.writeFlagThenResult, reg_setReg_ne _ hx, reg_setReg_ne _ hf]

/-! ### The call stack -/

/-- The pushed entry holds the pushed address, every other entry is unchanged (10_state.md R31). -/
theorem stackAt_pushCall (r : Word) (j : Fin 16) :
    (s.pushCall r).stackAt j = if j = stackSlot (s.sp + 1) then r else s.stackAt j := by
  simp only [State.stackAt, State.pushCall, Vector.get_eq_getElem, Vector.getElem_set, Fin.ext_iff]
  split <;> split <;> first | rfl | omega

/-- A pop answers the entry `SP` addresses (R32). -/
@[simp] theorem popCall_value : s.popCall.1 = s.stackAt (stackSlot s.sp) := rfl

/-! ### endTick in the two cases of `tick_count` (30_encoding.md R101) -/

/-- At `TIMER_PERIOD` the count restarts and the 60 Hz event runs (60_exceptions.md R241). -/
theorem endTick_of_fires (h : tickFires s) : endTick s = { timerEvent s with tickCount := 0 } := by
  have h' : (s.tickCount + 1 == timerPeriod s.config) = true := by simpa [tickFires] using h
  simp [endTick, h', timerEvent]

/-- Before it the tick is only counted. -/
theorem endTick_of_not_fires (h : ¬ tickFires s) : endTick s = { s with tickCount := s.tickCount + 1 } := by
  have h' : (s.tickCount + 1 == timerPeriod s.config) = false := by simpa [tickFires] using h
  simp [endTick, h']

/-! ### Every part of the frame at once -/

/-- A frame over no part is equality of every part; a larger set of parts allows more. -/
theorem FrameExcept.mono {D E : Part → Prop} {s t : State} (h : FrameExcept D s t) (hDE : ∀ p, D p → E p) :
    FrameExcept E s t := fun p hp => h p fun hd => hp (hDE p hd)

end Sys2Proof.Machine
end

