-- ==== Sys2Proof/Laws/Ops.lean ====
section
/-! SUPPORT. For each shared operation, what it can do: the memory primitives and the multi-byte transfers
(20_memory.md), the step's parts (30_encoding.md R101) and the 60 Hz event (60_exceptions.md R242). -/

namespace Sys2Proof.Machine

/-! ### Effective addresses -/

theorem effAddr_lt (base : Word) (k : Nat) : effAddr base k < 0x10000 := Nat.mod_lt _ (by decide)

/-- No transfer of at most 0x10000 bytes meets one address twice. -/
theorem effAddr_inj {base : Word} {j k : Nat} (hj : j < 0x10000) (hk : k < 0x10000)
    (h : effAddr base j = effAddr base k) : j = k := by
  simp only [effAddr] at h
  omega

@[simp] theorem addrsFrom_zero (base : Word) (k : Nat) : addrsFrom base k 0 = [] := rfl

theorem addrsFrom_succ (base : Word) (k n : Nat) :
    addrsFrom base k (n + 1) = effAddr base k :: addrsFrom base (k + 1) n := by
  simp only [addrsFrom, List.range_succ_eq_map, List.map_cons, List.map_map, Nat.add_zero]
  congr 1
  refine List.map_congr_left fun j _ => ?_
  simp only [Function.comp, effAddr]
  omega

@[simp] theorem outOfRangeEvents_nil (dir : Dir) : outOfRangeEvents dir [] = [] := rfl

theorem outOfRangeEvents_cons (dir : Dir) (a : Nat) (as : List Nat) :
    outOfRangeEvents dir (a :: as) = (if a ≤ memTop then [] else [.outOfRange a dir]) ++ outOfRangeEvents dir as := by
  by_cases h : a ≤ memTop
  · simp [outOfRangeEvents, h, Nat.not_lt.mpr h]
  · simp [outOfRangeEvents, h, Nat.not_le.mp h]

/-! ### One access -/

/-- A read gives the byte and changes nothing but the event log (R66). -/
theorem memRead_eq (a : Nat) (s : State) :
    memRead a s = (s.byteAt a, { s with events := s.events ++ outOfRangeEvents .read [a] }) := by
  unfold memRead
  by_cases h : a ≤ memTop
  · simp [outOfRangeEvents, h, Nat.not_lt.mpr h]
  · simp [outOfRangeEvents, State.emit, h, Nat.not_le.mp h]

/-- A write changes memory in range and the event log out of range (R67). -/
theorem memWrite_eq (a : Nat) (b : Byte) (s : State) :
    memWrite a b s =
      { s with
        mem := if a ≤ memTop then s.mem.write a b else s.mem
        events := s.events ++ outOfRangeEvents .write [a] } := by
  unfold memWrite
  by_cases h : a ≤ memTop
  · simp [outOfRangeEvents, h, Nat.not_lt.mpr h]
  · simp [outOfRangeEvents, State.emit, h, Nat.not_le.mp h]

/-- Every write keeps the canonical form of memory. -/
theorem memWrite_wf (a : Nat) (b : Byte) {s : State} (h : s.mem.wf) : (memWrite a b s).mem.wf := by
  rw [memWrite_eq]
  by_cases ha : a ≤ memTop
  · rw [if_pos ha]; exact Memory.write_wf h ha b
  · rw [if_neg ha]; exact h

/-! ### Multi-byte transfers -/

/-- A transfer reads the bytes at its effective addresses and changes nothing but the event log. -/
theorem readBytes_eq (base : Word) (k n : Nat) (s : State) :
    readBytes base k n s =
      ((addrsFrom base k n).map s.byteAt,
       { s with events := s.events ++ outOfRangeEvents .read (addrsFrom base k n) }) := by
  induction n generalizing k s with
  | zero => simp [readBytes]
  | succ n ih =>
    rw [addrsFrom_succ, outOfRangeEvents_cons]
    unfold readBytes
    simp only [memRead_eq, ih, List.map_cons, outOfRangeEvents_cons, outOfRangeEvents_nil, List.append_nil,
      List.append_assoc]
    rfl

/-- What a transfer of writes makes of memory: the bytes whose effective address lies in memory, in turn. -/
def Memory.writeAll (base : Word) : Nat → List Byte → Memory → Memory
  | _, [], m => m
  | k, b :: bs, m =>
    Memory.writeAll base (k + 1) bs (if effAddr base k ≤ memTop then m.write (effAddr base k) b else m)

/-- What a transfer of writes changes: memory and the event log. -/
theorem writeBytes_eq (base : Word) (k : Nat) (bs : List Byte) (s : State) :
    writeBytes base k bs s =
      { s with
        mem := Memory.writeAll base k bs s.mem
        events := s.events ++ outOfRangeEvents .write (addrsFrom base k bs.length) } := by
  induction bs generalizing k s with
  | nil => simp [writeBytes, Memory.writeAll]
  | cons b bs ih =>
    rw [List.length_cons, addrsFrom_succ, outOfRangeEvents_cons, writeBytes, ih]
    simp [Memory.writeAll, memWrite_eq, outOfRangeEvents_cons]

/-- A transfer of writes leaves every address outside its effective addresses alone. -/
theorem read_writeBytes_outside (base : Word) (k : Nat) (bs : List Byte) (s : State) {a : Nat}
    (h : ∀ j < bs.length, effAddr base (k + j) ≠ a) : (writeBytes base k bs s).mem.read a = s.mem.read a := by
  induction bs generalizing k s with
  | nil => rfl
  | cons b bs ih =>
    have h0 : effAddr base k ≠ a := h 0 (by simp)
    have hrest : ∀ j < bs.length, effAddr base (k + 1 + j) ≠ a := fun j hj => by
      have := h (j + 1) (by simp; omega)
      rwa [show k + (j + 1) = k + 1 + j by omega] at this
    rw [writeBytes, ih _ _ hrest, memWrite_eq]
    dsimp only
    split
    · exact Memory.read_write_ne _ _ h0.symm
    · rfl

/-- A transfer of writes never changes what an address above 0xFFF reads as. -/
theorem read_writeBytes_above (base : Word) (k : Nat) (bs : List Byte) (s : State) {a : Nat} (h : memTop < a) :
    (writeBytes base k bs s).mem.read a = s.mem.read a := by
  induction bs generalizing k s with
  | nil => rfl
  | cons b bs ih =>
    rw [writeBytes, ih, memWrite_eq]
    dsimp only
    split
    · exact Memory.read_write_ne _ _ (by omega)
    · rfl

/-- A transfer of writes keeps the canonical form. -/
theorem writeBytes_wf (base : Word) (k : Nat) (bs : List Byte) {s : State} (h : s.mem.wf) :
    (writeBytes base k bs s).mem.wf := by
  induction bs generalizing k s with
  | nil => exact h
  | cons b bs ih => exact ih _ (memWrite_wf _ b h)

/-- A transfer of writes stores its `j`-th byte at its `j`-th effective address, if that is in memory. -/
theorem read_writeBytes (base : Word) (k : Nat) (bs : List Byte) {s : State} (hm : s.mem.wf)
    (hk : k + bs.length ≤ 0x10000) {j : Nat} (hj : j < bs.length) (ha : effAddr base (k + j) ≤ memTop) :
    (writeBytes base k bs s).mem.read (effAddr base (k + j)) = bs[j] := by
  induction bs generalizing k s j with
  | nil => simp at hj
  | cons b bs ih =>
    rw [List.length_cons] at hk hj
    rw [writeBytes]
    cases j with
    | zero =>
      rw [read_writeBytes_outside]
      · rw [memWrite_eq]
        simp only [Nat.add_zero] at ha ⊢
        simp [ha, Memory.read_write_self hm]
      · intro i hi he
        have := effAddr_inj (by omega) (by omega) he
        omega
    | succ j =>
      have hj' : j < bs.length := by omega
      rw [show k + (j + 1) = k + 1 + j by omega] at ha ⊢
      rw [ih (k + 1) (memWrite_wf _ b hm) (by omega) hj' ha]
      simp

/-- A load of registers from `k` on: each takes its byte, every other register is unchanged. -/
theorem reg_writeRegs (k : Nat) (bs : List Byte) (s : State) (hk : k + bs.length ≤ 16) (r : RegIdx) :
    (writeRegs k bs s).reg r =
      if h : k ≤ r.val ∧ r.val < k + bs.length then bs[r.val - k]'(by omega) else s.reg r := by
  induction bs generalizing k s with
  | nil => simp [writeRegs]
  | cons b bs ih =>
    rw [List.length_cons] at hk
    rw [writeRegs, ih _ _ (by omega)]
    have hkv : (Fin.ofNat 16 k).val = k := by simp [Fin.ofNat]; omega
    by_cases h1 : k + 1 ≤ r.val ∧ r.val < k + 1 + bs.length
    · have h2 : k ≤ r.val ∧ r.val < k + (b :: bs).length := by rw [List.length_cons]; omega
      rw [dif_pos h1, dif_pos h2]
      have : r.val - k = (r.val - (k + 1)) + 1 := by omega
      simp only [this, List.getElem_cons_succ]
    · rw [dif_neg h1, reg_setReg]
      by_cases h3 : r.val = k
      · have h2 : k ≤ r.val ∧ r.val < k + (b :: bs).length := by rw [List.length_cons]; omega
        have hr : r = Fin.ofNat 16 k := Fin.ext (by omega)
        rw [dif_pos h2, if_pos hr]
        simp [h3]
      · have h2 : ¬ (k ≤ r.val ∧ r.val < k + (b :: bs).length) := by rw [List.length_cons]; omega
        have hr : r ≠ Fin.ofNat 16 k := fun h => h3 (by rw [h, hkv])
        rw [dif_neg h2, if_neg hr]

/-- The register file after a load of registers from `k` on. -/
def loadFile : Nat → List Byte → Vector Byte 16 → Vector Byte 16
  | _, [], v => v
  | k, b :: bs, v => loadFile (k + 1) bs (v.set (Fin.ofNat 16 k).val b (Fin.ofNat 16 k).isLt)

/-- A load of registers changes only registers. -/
theorem writeRegs_eq (k : Nat) (bs : List Byte) (s : State) :
    writeRegs k bs s = { s with v := loadFile k bs s.v } := by
  induction bs generalizing k s with
  | nil => rfl
  | cons b bs ih => rw [writeRegs, ih]; rfl

/-- `V[0]`, ..., `V[x]` as a list (42_index_memory.md R174). -/
theorem regsUpTo_length (x : RegIdx) (s : State) : (regsUpTo x s).length = x.val + 1 := by
  have := x.isLt
  simp [regsUpTo]

theorem regsUpTo_getElem (x : RegIdx) (s : State) (k : Nat) (h : k < (regsUpTo x s).length) :
    (regsUpTo x s)[k] = s.reg ⟨k, by rw [regsUpTo_length] at h; have := x.isLt; omega⟩ := by
  simp [regsUpTo, State.reg, Vector.get_eq_getElem]

/-! ### The parts of a step -/

/-- The fetch reads two bytes; execute sees `PC` advanced by 2 and the fetch's events in the log (R101 to R103). -/
theorem afterFetch_eq (s : State) :
    s.afterFetch =
      { s with
        pc := s.pc + 2
        events := s.events ++ outOfRangeEvents .read (addrsFrom s.pc 0 2) } := by
  simp [State.afterFetch, State.advancePc, memRead_eq, addrsFrom_succ, outOfRangeEvents_cons]

/-- A load of the host's changes only memory and the event log, and keeps the canonical form (70_reset_and_hazards.md R273). -/
theorem hostLoadFrom_wf (a : Nat) (bs : List Byte) {s : State} (h : s.mem.wf) : (hostLoadFrom a bs s).mem.wf := by
  induction bs generalizing a s with
  | nil => exact h
  | cons b bs ih => exact ih _ (memWrite_wf a b h)

/-- `tick_count` stays below `TIMER_PERIOD` through the end of a tick (10_state.md R39). -/
theorem endTick_tickCount_lt {s : State} (h : s.tickCount < timerPeriod s.config) :
    (endTick s).tickCount < timerPeriod (endTick s).config := by
  by_cases hf : tickFires s
  · rw [endTick_of_fires s hf]
    show 0 < timerPeriod s.config
    omega
  · rw [endTick_of_not_fires s hf]
    show s.tickCount + 1 < timerPeriod s.config
    unfold tickFires at hf
    omega

end Sys2Proof.Machine
end

