-- ==== Sys2Proof/Laws/Display.lean ====
section
/-! SUPPORT. What drawing a sprite does to every pixel (43_display.md R191 to R196). -/

namespace Sys2Proof.Machine

/-- Reading a pixel after writing one. -/
theorem pixel_setPixel (fb : Framebuffer) (px qx : Fin 64) (py qy : Fin 32) (b : Bool) :
    (fb.setPixel px py b).pixel qx qy = if qx = px ∧ qy = py then b else fb.pixel qx qy := by
  simp only [Framebuffer.pixel, Framebuffer.setPixel, Vector.get_eq_getElem, Vector.getElem_set, Fin.ext_iff]
  by_cases hx : px.val = qx.val
  · have hx' : px = qx := Fin.ext hx
    subst hx'
    by_cases hy : py.val = qy.val
    · simp [hy]
    · simp [hy, Ne.symm hy]
  · simp [hx, Ne.symm hx]

@[simp] theorem pixel_clear (px : Fin 64) (py : Fin 32) : Framebuffer.clear.pixel px py = false := by
  simp [Framebuffer.pixel, Framebuffer.clear, Vector.get_eq_getElem]

/-- Two framebuffers with the same pixels are equal. -/
theorem Framebuffer.ext_pixel {f g : Framebuffer} (h : ∀ px py, f.pixel px py = g.pixel px py) : f = g := by
  apply Vector.ext
  intro i hi
  apply Vector.ext
  intro j hj
  have := h ⟨i, hi⟩ ⟨j, hj⟩
  simpa [Framebuffer.pixel, Vector.get_eq_getElem] using this

/-! ### A sprite as the list of the pixels it toggles -/

/-- The pixels one sprite row toggles, left to right. -/
def rowToggles (cx cy : Byte) (row : Nat) (b : Byte) : List (Fin 64 × Fin 32) :=
  ((List.range 8).filter fun col => b.getLsbD (7 - col)).map fun col => (pixelColumn cx col, pixelRow cy row)

/-- The pixels a sprite toggles, row by row. -/
def toggles (cx cy : Byte) : Nat → List Byte → List (Fin 64 × Fin 32)
  | _, [] => []
  | row, b :: bs => rowToggles cx cy row b ++ toggles cx cy (row + 1) bs

/-- Toggle every pixel of a list, in order. -/
def toggleAll (d : Drawing) (ps : List (Fin 64 × Fin 32)) : Drawing := ps.foldl (fun d p => xorPixel p.1 p.2 d) d

theorem drawRow_eq (cx cy : Byte) (row : Nat) (b : Byte) (d : Drawing) :
    drawRow cx cy row b d = toggleAll d (rowToggles cx cy row b) := by
  simp only [drawRow, toggleAll, rowToggles, List.foldl_map, List.foldl_filter]
  rfl

theorem drawRows_eq (cx cy : Byte) (row : Nat) (bs : List Byte) (d : Drawing) :
    drawRows cx cy row bs d = toggleAll d (toggles cx cy row bs) := by
  induction bs generalizing row d with
  | nil => rfl
  | cons b bs ih => simp only [drawRows, toggles, drawRow_eq, ih, toggleAll, List.foldl_append]

/-- Toggling distinct pixels: each listed pixel changes once, and a collision is a listed pixel that was lit. -/
theorem toggleAll_spec (ps : List (Fin 64 × Fin 32)) (hn : ps.Nodup) (d : Drawing) :
    (∀ px py, (toggleAll d ps).fb.pixel px py = (d.fb.pixel px py ^^ decide ((px, py) ∈ ps))) ∧
    ((toggleAll d ps).collide = (d.collide || ps.any fun p => d.fb.pixel p.1 p.2)) ∧
    ((toggleAll d ps).changed = (d.changed || !ps.isEmpty)) := by
  induction ps generalizing d with
  | nil => simp [toggleAll]
  | cons p ps ih =>
    obtain ⟨hp, hn'⟩ := List.nodup_cons.mp hn
    obtain ⟨h1, h2, h3⟩ := ih hn' (xorPixel p.1 p.2 d)
    have hstep : toggleAll d (p :: ps) = toggleAll (xorPixel p.1 p.2 d) ps := rfl
    rw [hstep]
    refine ⟨fun px py => ?_, ?_, ?_⟩
    · rw [h1]
      simp only [xorPixel, pixel_setPixel, List.mem_cons]
      by_cases hq : (px, py) = p
      · subst hq
        simp [hp]
      · have hq1 : ¬ (px = p.1 ∧ py = p.2) := fun h => hq (Prod.ext h.1 h.2)
        simp [hq1, hq]
    · rw [h2]
      have hrest : (ps.any fun q => (xorPixel p.1 p.2 d).fb.pixel q.1 q.2) = ps.any fun q => d.fb.pixel q.1 q.2 := by
        rw [Bool.eq_iff_iff]
        simp only [List.any_eq_true]
        refine exists_congr fun q => and_congr_right fun hq => ?_
        have hqp : ¬ (q.1 = p.1 ∧ q.2 = p.2) := fun h => hp (by rw [← Prod.ext h.1 h.2 (x := q)]; exact hq)
        simp [xorPixel, pixel_setPixel, hqp]
      rw [hrest]
      simp [xorPixel, Bool.or_assoc]
    · rw [h3]
      simp [xorPixel]

theorem pixelColumn_inj {cx : Byte} {c d : Nat} (hc : c < 64) (hd : d < 64)
    (h : pixelColumn cx c = pixelColumn cx d) : c = d := by
  simp only [pixelColumn, Fin.mk.injEq] at h
  omega

theorem pixelRow_inj {cy : Byte} {c d : Nat} (h : pixelRow cy c = pixelRow cy d) (hcd : c ≤ d) (hd : d < c + 32) :
    c = d := by
  simp only [pixelRow, Fin.mk.injEq] at h
  omega

theorem mem_toggles {cx cy : Byte} {row : Nat} {bs : List Byte} {p : Fin 64 × Fin 32} :
    p ∈ toggles cx cy row bs ↔
      ∃ r col, r < bs.length ∧ col < 8 ∧ (bs.getD r 0).getLsbD (7 - col) = true ∧
        p = (pixelColumn cx col, pixelRow cy (row + r)) := by
  induction bs generalizing row with
  | nil => simp [toggles]
  | cons b bs ih =>
    simp only [toggles, List.mem_append, ih, rowToggles, List.mem_map, List.mem_filter, List.mem_range]
    constructor
    · rintro (⟨col, ⟨hc, hb⟩, rfl⟩ | ⟨r, col, hr, hc, hb, rfl⟩)
      · exact ⟨0, col, by simp, hc, by simpa using hb, by simp⟩
      · exact ⟨r + 1, col, by simp; omega, hc, by simpa using hb, by rw [show row + 1 + r = row + (r + 1) by omega]⟩
    · rintro ⟨r, col, hr, hc, hb, rfl⟩
      cases r with
      | zero => exact .inl ⟨col, ⟨hc, by simpa using hb⟩, by simp⟩
      | succ r =>
        exact .inr ⟨r, col, by simpa using hr, hc, by simpa using hb,
          by rw [show row + 1 + r = row + (r + 1) by omega]⟩

/-- A sprite of at most 32 rows toggles no pixel twice (R191: 8 columns < 64 and 15 rows < 32). -/
theorem toggles_nodup (cx cy : Byte) (row : Nat) (bs : List Byte) (h : bs.length ≤ 32) :
    (toggles cx cy row bs).Nodup := by
  induction bs generalizing row with
  | nil => exact List.nodup_nil
  | cons b bs ih =>
    rw [List.length_cons] at h
    rw [toggles, List.nodup_append]
    refine ⟨?_, ih _ (by omega), ?_⟩
    · unfold rowToggles
      refine List.Nodup.map_on ?_ ((List.nodup_range).filter _)
      intro c hc d hd hcd
      rw [List.mem_filter, List.mem_range] at hc hd
      exact pixelColumn_inj (by omega) (by omega) (congrArg Prod.fst hcd)
    · rintro p hp q hq rfl
      simp only [rowToggles, List.mem_map] at hp
      obtain ⟨c, -, rfl⟩ := hp
      obtain ⟨r, d, hr, -, -, hpq⟩ := mem_toggles.mp hq
      have := pixelRow_inj (congrArg Prod.snd hpq) (by omega) (by omega)
      omega

/-- A pixel is toggled exactly when a set sprite bit is on it. -/
theorem mem_toggles_iff_covers {cx cy : Byte} {bs : List Byte} (h : bs.length ≤ 32) (px : Fin 64) (py : Fin 32) :
    (px, py) ∈ toggles cx cy 0 bs ↔ spriteCovers cx cy bs px py = true := by
  have hpx := px.isLt
  have hpy := py.isLt
  rw [mem_toggles]
  simp only [spriteCovers, Bool.and_eq_true, decide_eq_true_eq, Prod.mk.injEq, pixelColumn, pixelRow, Fin.ext_iff,
    Nat.zero_add]
  constructor
  · rintro ⟨r, col, hr, hc, hb, h1, h2⟩
    have e1 : (px.val + 64 - cx.toNat % 64) % 64 = col := by omega
    have e2 : (py.val + 32 - cy.toNat % 32) % 32 = r := by omega
    rw [e1, e2]
    exact ⟨hc, hb⟩
  · rintro ⟨hc, hb⟩
    refine ⟨(py.val + 32 - cy.toNat % 32) % 32, (px.val + 64 - cx.toNat % 64) % 64, ?_, hc, hb, by omega, by omega⟩
    by_contra hlt
    rw [List.getD_eq_default _ _ (by omega)] at hb
    simp at hb

/-- Drawing a sprite of at most 32 rows: every covered pixel changes, no other; a collision is a covered lit pixel; a
pixel changed exactly when some row's byte is not 0 (R191, R195). -/
theorem drawSprite_spec (cx cy : Byte) (bs : List Byte) (fb : Framebuffer) (h : bs.length ≤ 32) :
    (∀ px py, (drawSprite cx cy bs fb).fb.pixel px py = (fb.pixel px py ^^ spriteCovers cx cy bs px py)) ∧
    ((drawSprite cx cy bs fb).collide = true ↔
      ∃ px py, spriteCovers cx cy bs px py = true ∧ fb.pixel px py = true) ∧
    ((drawSprite cx cy bs fb).changed = true ↔ ∃ px py, spriteCovers cx cy bs px py = true) := by
  obtain ⟨h1, h2, h3⟩ := toggleAll_spec (toggles cx cy 0 bs) (toggles_nodup cx cy 0 bs h)
    { fb := fb, collide := false, changed := false }
  rw [drawSprite, drawRows_eq]
  refine ⟨fun px py => ?_, ?_, ?_⟩
  · rw [h1]
    congr 1
    rw [Bool.eq_iff_iff, decide_eq_true_eq, mem_toggles_iff_covers h]
  · rw [h2]
    simp only [Bool.false_or, List.any_eq_true]
    constructor
    · rintro ⟨⟨px, py⟩, hp, hl⟩
      exact ⟨px, py, (mem_toggles_iff_covers h px py).mp hp, hl⟩
    · rintro ⟨px, py, hp, hl⟩
      exact ⟨(px, py), (mem_toggles_iff_covers h px py).mpr hp, hl⟩
  · rw [h3]
    simp only [Bool.false_or, Bool.not_eq_true', List.isEmpty_eq_false_iff_exists_mem]
    constructor
    · rintro ⟨⟨px, py⟩, hp⟩
      exact ⟨px, py, (mem_toggles_iff_covers h px py).mp hp⟩
    · rintro ⟨px, py, hp⟩
      exact ⟨(px, py), (mem_toggles_iff_covers h px py).mpr hp⟩

end Sys2Proof.Machine
end

