-- ==== Sys2Proof/Laws/Encoding.lean ====
section
/-! SUPPORT. The fields of an encoded word (30_encoding.md R91, R92): packing and taking apart, through the word's number. -/

namespace Sys2Proof

/-! ### The number of a packed word -/

theorem packNNN_toNat (op : Nibble) (nnn : Addr) : (packNNN op nnn).toNat = op.toNat * 0x1000 + nnn.toNat := by
  have h := BitVec.toNat_append op nnn
  rw [← Nat.shiftLeft_add_eq_or_of_lt nnn.isLt, Nat.shiftLeft_eq] at h
  exact h

theorem packXKK_toNat (op : Nibble) (x : RegIdx) (kk : Byte) :
    (packXKK op x kk).toNat = op.toNat * 0x1000 + x.val * 0x100 + kk.toNat := by
  have h1 := BitVec.toNat_append op (BitVec.ofFin x : Nibble)
  have h2 := BitVec.toNat_append (op ++ (BitVec.ofFin x : Nibble)) kk
  rw [← Nat.shiftLeft_add_eq_or_of_lt (BitVec.isLt _), Nat.shiftLeft_eq] at h1
  rw [← Nat.shiftLeft_add_eq_or_of_lt kk.isLt, Nat.shiftLeft_eq, h1] at h2
  refine Eq.trans (b := _) h2 ?_
  have : (BitVec.ofFin x : Nibble).toNat = x.val := rfl
  omega

theorem packXYN_toNat (op : Nibble) (x y : RegIdx) (n : Nibble) :
    (packXYN op x y n).toNat = op.toNat * 0x1000 + x.val * 0x100 + y.val * 0x10 + n.toNat := by
  have h1 := BitVec.toNat_append op (BitVec.ofFin x : Nibble)
  have h2 := BitVec.toNat_append (op ++ (BitVec.ofFin x : Nibble)) (BitVec.ofFin y : Nibble)
  have h3 := BitVec.toNat_append (op ++ (BitVec.ofFin x : Nibble) ++ (BitVec.ofFin y : Nibble)) n
  rw [← Nat.shiftLeft_add_eq_or_of_lt (BitVec.isLt _), Nat.shiftLeft_eq] at h1
  rw [← Nat.shiftLeft_add_eq_or_of_lt (BitVec.isLt _), Nat.shiftLeft_eq, h1] at h2
  rw [← Nat.shiftLeft_add_eq_or_of_lt n.isLt, Nat.shiftLeft_eq, h2] at h3
  refine Eq.trans (b := _) h3 ?_
  have : (BitVec.ofFin x : Nibble).toNat = x.val := rfl
  have : (BitVec.ofFin y : Nibble).toNat = y.val := rfl
  omega

theorem wordOfBytes_toNat (hi lo : Byte) : (wordOfBytes hi lo).toNat = hi.toNat * 0x100 + lo.toNat := by
  have h := BitVec.toNat_append hi lo
  rw [← Nat.shiftLeft_add_eq_or_of_lt lo.isLt, Nat.shiftLeft_eq] at h
  exact h

/-! ### The number of a field -/

theorem opField_toNat (w : Word) : (opField w).toNat = w.toNat / 0x1000 := by
  simp [opField, Nat.shiftRight_eq_div_pow]
  omega

theorem xField_val (w : Word) : (xField w).val = w.toNat / 0x100 % 0x10 := by
  simp [xField, Nat.shiftRight_eq_div_pow]

theorem yField_val (w : Word) : (yField w).val = w.toNat / 0x10 % 0x10 := by
  simp [yField, Nat.shiftRight_eq_div_pow]

theorem nField_toNat (w : Word) : (nField w).toNat = w.toNat % 0x10 := by
  simp [nField]

theorem kkField_toNat (w : Word) : (kkField w).toNat = w.toNat % 0x100 := by
  simp [kkField]

theorem nnnField_toNat (w : Word) : (nnnField w).toNat = w.toNat % 0x1000 := by
  simp [nnnField]

theorem highByte_toNat (w : Word) : (highByte w).toNat = w.toNat / 0x100 := by
  simp [highByte, Nat.shiftRight_eq_div_pow]
  omega

theorem lowByte_toNat (w : Word) : (lowByte w).toNat = w.toNat % 0x100 := by
  simp [lowByte]

/-- A word is its high byte and its low byte (20_memory.md R70). -/
@[simp] theorem wordOfBytes_bytes (w : Word) : wordOfBytes (highByte w) (lowByte w) = w := by
  apply BitVec.eq_of_toNat_eq
  rw [wordOfBytes_toNat, highByte_toNat, lowByte_toNat]
  omega

/-! ### A field of a packed word -/

@[simp] theorem opField_packNNN (op : Nibble) (nnn : Addr) : opField (packNNN op nnn) = op := by
  apply BitVec.eq_of_toNat_eq
  rw [opField_toNat, packNNN_toNat]
  omega

@[simp] theorem nnnField_packNNN (op : Nibble) (nnn : Addr) : nnnField (packNNN op nnn) = nnn := by
  apply BitVec.eq_of_toNat_eq
  rw [nnnField_toNat, packNNN_toNat]
  omega

@[simp] theorem opField_packXKK (op : Nibble) (x : RegIdx) (kk : Byte) : opField (packXKK op x kk) = op := by
  apply BitVec.eq_of_toNat_eq
  rw [opField_toNat, packXKK_toNat]
  omega

@[simp] theorem xField_packXKK (op : Nibble) (x : RegIdx) (kk : Byte) : xField (packXKK op x kk) = x := by
  apply Fin.ext
  rw [xField_val, packXKK_toNat]
  omega

@[simp] theorem kkField_packXKK (op : Nibble) (x : RegIdx) (kk : Byte) : kkField (packXKK op x kk) = kk := by
  apply BitVec.eq_of_toNat_eq
  rw [kkField_toNat, packXKK_toNat]
  omega

@[simp] theorem opField_packXYN (op : Nibble) (x y : RegIdx) (n : Nibble) : opField (packXYN op x y n) = op := by
  apply BitVec.eq_of_toNat_eq
  rw [opField_toNat, packXYN_toNat]
  omega

@[simp] theorem xField_packXYN (op : Nibble) (x y : RegIdx) (n : Nibble) : xField (packXYN op x y n) = x := by
  apply Fin.ext
  rw [xField_val, packXYN_toNat]
  omega

@[simp] theorem yField_packXYN (op : Nibble) (x y : RegIdx) (n : Nibble) : yField (packXYN op x y n) = y := by
  apply Fin.ext
  rw [yField_val, packXYN_toNat]
  omega

@[simp] theorem nField_packXYN (op : Nibble) (x y : RegIdx) (n : Nibble) : nField (packXYN op x y n) = n := by
  apply BitVec.eq_of_toNat_eq
  rw [nField_toNat, packXYN_toNat]
  omega

/-! ### A word is the packing of its fields -/

theorem packNNN_fields (w : Word) : packNNN (opField w) (nnnField w) = w := by
  apply BitVec.eq_of_toNat_eq
  rw [packNNN_toNat, opField_toNat, nnnField_toNat]
  omega

theorem packXKK_fields (w : Word) : packXKK (opField w) (xField w) (kkField w) = w := by
  apply BitVec.eq_of_toNat_eq
  rw [packXKK_toNat, opField_toNat, xField_val, kkField_toNat]
  omega

theorem packXYN_fields (w : Word) : packXYN (opField w) (xField w) (yField w) (nField w) = w := by
  apply BitVec.eq_of_toNat_eq
  rw [packXYN_toNat, opField_toNat, xField_val, yField_val, nField_toNat]
  omega

/-! ### The fixed bits of a packed word, by the table's masks -/

theorem packNNN_and_op (op : Nibble) (nnn : Addr) : packNNN op nnn &&& 0xF000 = packNNN op 0 := by
  show (op ++ nnn) &&& ((0xF#4 : Nibble) ++ (0#12 : Addr)) = _
  rw [BitVec.and_append]
  simp only [BitVec.and_zero, packNNN]
  congr 1
  exact BitVec.and_allOnes

theorem packXKK_and_op (op : Nibble) (x : RegIdx) (kk : Byte) : packXKK op x kk &&& 0xF000 = packXKK op 0 0 := by
  show (op ++ (BitVec.ofFin x : Nibble) ++ kk) &&& ((0xF#4 : Nibble) ++ (0#4 : Nibble) ++ (0#8 : Byte)) = _
  rw [BitVec.and_append, BitVec.and_append]
  simp only [BitVec.and_zero, packXKK]
  congr 2
  exact BitVec.and_allOnes

theorem packXKK_and_opkk (op : Nibble) (x : RegIdx) (kk : Byte) : packXKK op x kk &&& 0xF0FF = packXKK op 0 kk := by
  show (op ++ (BitVec.ofFin x : Nibble) ++ kk) &&& ((0xF#4 : Nibble) ++ (0#4 : Nibble) ++ (0xFF#8 : Byte)) = _
  rw [BitVec.and_append, BitVec.and_append]
  simp only [BitVec.and_zero, packXKK]
  congr 2
  · exact BitVec.and_allOnes
  · exact BitVec.and_allOnes

theorem packXYN_and_op (op : Nibble) (x y : RegIdx) (n : Nibble) : packXYN op x y n &&& 0xF000 = packXYN op 0 0 0 := by
  show HAnd.hAnd (op ++ (BitVec.ofFin x : Nibble) ++ (BitVec.ofFin y : Nibble) ++ n)
    ((0xF#4 : Nibble) ++ (0#4 : Nibble) ++ (0#4 : Nibble) ++ (0#4 : Nibble)) = _
  rw [BitVec.and_append, BitVec.and_append, BitVec.and_append]
  simp only [BitVec.and_zero, packXYN]
  congr 3
  exact BitVec.and_allOnes

theorem packXYN_and_opn (op : Nibble) (x y : RegIdx) (n : Nibble) : packXYN op x y n &&& 0xF00F = packXYN op 0 0 n := by
  show HAnd.hAnd (op ++ (BitVec.ofFin x : Nibble) ++ (BitVec.ofFin y : Nibble) ++ n)
    ((0xF#4 : Nibble) ++ (0#4 : Nibble) ++ (0#4 : Nibble) ++ (0xF#4 : Nibble)) = _
  rw [BitVec.and_append, BitVec.and_append, BitVec.and_append]
  simp only [BitVec.and_zero, packXYN]
  congr 3
  · exact BitVec.and_allOnes
  · exact BitVec.and_allOnes

end Sys2Proof
end

