-- ==== Sys2Proof/Laws/Frame.lean ====
section
/-! SUPPORT. The frame of each shared operation: which parts of the state it can change (00_scope.md R18). -/

namespace Sys2Proof.Machine

theorem FrameExcept.rfl' (D : Part → Prop) (s : State) : FrameExcept D s s := fun p _ => by cases p <;> rfl

theorem Part.same.trans {s t u : State} {p : Part} (h1 : p.same s t) (h2 : p.same t u) : p.same s u := by
  cases p <;> exact Eq.trans h2 h1

theorem FrameExcept.trans {D : Part → Prop} {s t u : State} (h1 : FrameExcept D s t) (h2 : FrameExcept D t u) :
    FrameExcept D s u := fun p hp => (h1 p hp).trans (h2 p hp)

theorem frame_setReg (s : State) (x : RegIdx) (b : Byte) : FrameBut [.reg x] s (s.setReg x b) := by
  intro p hp
  cases p with
  | reg k => exact reg_setReg_ne s (fun h => hp (by simp [h])) b
  | _ => rfl

theorem frame_writeFlagThenResult (s : State) (x : RegIdx) (f : Bool) (b : Byte) :
    FrameBut [.reg x, .reg VF] s (s.writeFlagThenResult x f b) := by
  intro p hp
  cases p with
  | reg k => exact reg_writeFlagThenResult_ne s (fun h => hp (by simp [h])) (fun h => hp (by simp [h])) f b
  | _ => rfl

theorem frame_pc (s : State) (w : Word) : FrameBut [.pc] s { s with pc := w } := by
  intro p hp
  cases p with
  | pc => exact absurd (by simp) hp
  | _ => rfl

theorem frame_i (s : State) (w : Word) : FrameBut [.i] s { s with i := w } := by
  intro p hp
  cases p with
  | i => exact absurd (by simp) hp
  | _ => rfl

theorem frame_dt (s : State) (b : Byte) : FrameBut [.dt] s { s with dt := b } := by
  intro p hp
  cases p with
  | dt => exact absurd (by simp) hp
  | _ => rfl

theorem frame_st (s : State) (b : Byte) : FrameBut [.st] s { s with st := b } := by
  intro p hp
  cases p with
  | st => exact absurd (by simp) hp
  | _ => rfl

theorem frame_waitKey (s : State) (o : Option RegIdx) : FrameBut [.waitKey] s { s with waitKey := o } := by
  intro p hp
  cases p with
  | waitKey => exact absurd (by simp) hp
  | _ => rfl

theorem frame_events (s : State) (es : List Event) : FrameBut [.events] s { s with events := es } := by
  intro p hp
  cases p with
  | events => exact absurd (by simp) hp
  | _ => rfl

theorem frame_afterFetch (s : State) : FrameBut [.pc, .events] s s.afterFetch := by
  rw [afterFetch_eq]
  intro p hp
  cases p with
  | pc => exact absurd (by simp) hp
  | events => exact absurd (by simp) hp
  | _ => rfl

theorem frame_useInput (s : State) : FrameBut [.inputs, .draws] s s.useInput := by
  intro p hp
  cases p with
  | inputs => exact absurd (by simp) hp
  | draws => exact absurd (by simp) hp
  | _ => rfl

theorem frame_timerEvent (s : State) : FrameBut [.dirty, .dt, .st, .events] s (timerEvent s) := by
  intro p hp
  cases p with
  | dirty => exact absurd (by simp) hp
  | dt => exact absurd (by simp) hp
  | st => exact absurd (by simp) hp
  | events => exact absurd (by simp) hp
  | _ => rfl

theorem frame_pushCall (s : State) (r w : Word) :
    FrameBut [.pc, .sp, .stack (stackSlot (s.sp + 1))] s { s.pushCall r with pc := w } := by
  intro p hp
  cases p with
  | pc => exact absurd (by simp) hp
  | sp => exact absurd (by simp) hp
  | stack j =>
    have hj : j ≠ stackSlot (s.sp + 1) := fun h => hp (by simp [h])
    exact (stackAt_pushCall s r j).trans (if_neg hj)
  | _ => rfl

theorem frame_popCall (s : State) (w : Word) : FrameBut [.pc, .sp] s { s.popCall.2 with pc := w } := by
  intro p hp
  cases p with
  | pc => exact absurd (by simp) hp
  | sp => exact absurd (by simp) hp
  | _ => rfl

/-- An address above 0xFFF takes no byte: a transfer of writes changes only the bytes at its effective addresses that lie
in memory, and the event log. -/
theorem frame_writeBytes (base : Word) (bs : List Byte) (s : State) :
    FrameExcept (fun p => p = .events ∨ ∃ k < bs.length, effAddr base k ≤ memTop ∧ p = .byte (effAddr base k)) s
      (writeBytes base 0 bs s) := by
  intro p hp
  cases p with
  | events => exact absurd (.inl rfl) hp
  | byte a =>
    by_cases ha : a ≤ memTop
    · refine read_writeBytes_outside base 0 bs s fun j hj he => ?_
      rw [Nat.zero_add] at he
      exact hp (.inr ⟨j, hj, he ▸ ha, by rw [he]⟩)
    · exact read_writeBytes_above base 0 bs s (Nat.not_le.mp ha)
  | _ => rw [writeBytes_eq]; rfl

theorem frame_writeRegs (k : Nat) (bs : List Byte) (s : State) (hk : k + bs.length ≤ 16) :
    FrameExcept (fun p => ∃ r : RegIdx, k ≤ r.val ∧ r.val < k + bs.length ∧ p = .reg r) s (writeRegs k bs s) := by
  intro p hp
  cases p with
  | reg r =>
    have h : ¬ (k ≤ r.val ∧ r.val < k + bs.length) := fun h => hp ⟨r, h.1, h.2, rfl⟩
    exact (reg_writeRegs k bs s hk r).trans (dif_neg h)
  | _ => rw [writeRegs_eq]; rfl

end Sys2Proof.Machine
end

