-- ==== Sys2Proof/Laws/PerInstr.lean ====
section
/-! SUPPORT. Statements made once per instruction: every instruction's word has the fixed bits of its row of
spec/opcode_table.json. -/

namespace Sys2Proof.Laws.EncodingRow

/-- The columns "mask" and "match" of an instruction's row of spec/opcode_table.json. -/
def row : Instr → Word × Word
  | .sys _ => (0xF000, 0x0000)
  | .cls => (0xFFFF, 0x00E0)
  | .ret => (0xFFFF, 0x00EE)
  | .jp _ => (0xF000, 0x1000)
  | .call _ => (0xF000, 0x2000)
  | .seByte _ _ => (0xF000, 0x3000)
  | .sneByte _ _ => (0xF000, 0x4000)
  | .seReg _ _ => (0xF000, 0x5000)
  | .ldByte _ _ => (0xF000, 0x6000)
  | .addByte _ _ => (0xF000, 0x7000)
  | .ldReg _ _ => (0xF00F, 0x8000)
  | .orReg _ _ => (0xF00F, 0x8001)
  | .andReg _ _ => (0xF00F, 0x8002)
  | .xorReg _ _ => (0xF00F, 0x8003)
  | .addReg _ _ => (0xF00F, 0x8004)
  | .subReg _ _ => (0xF00F, 0x8005)
  | .shr _ _ => (0xF00F, 0x8006)
  | .subnReg _ _ => (0xF00F, 0x8007)
  | .shl _ _ => (0xF00F, 0x800E)
  | .sneReg _ _ => (0xF000, 0x9000)
  | .ldI _ => (0xF000, 0xA000)
  | .jpV0 _ => (0xF000, 0xB000)
  | .rnd _ _ => (0xF000, 0xC000)
  | .drw _ _ _ => (0xF000, 0xD000)
  | .skp _ => (0xF0FF, 0xE09E)
  | .sknp _ => (0xF0FF, 0xE0A1)
  | .ldVxDt _ => (0xF0FF, 0xF007)
  | .ldVxK _ => (0xF0FF, 0xF00A)
  | .ldDtVx _ => (0xF0FF, 0xF015)
  | .ldStVx _ => (0xF0FF, 0xF018)
  | .addI _ => (0xF0FF, 0xF01E)
  | .ldF _ => (0xF0FF, 0xF029)
  | .ldB _ => (0xF0FF, 0xF033)
  | .storeRegs _ => (0xF0FF, 0xF055)
  | .loadRegs _ => (0xF0FF, 0xF065)

/-- The encoded word, under the row's mask, is the row's match. -/
def Statement (i : Instr) : Prop := encode i &&& (row i).1 = (row i).2

theorem sys (nnn : Addr) : Statement (.sys nnn) := (packNNN_and_op _ nnn).trans rfl
theorem cls : Statement (.cls) := rfl
theorem ret : Statement (.ret) := rfl
theorem jp (nnn : Addr) : Statement (.jp nnn) := (packNNN_and_op _ nnn).trans rfl
theorem call (nnn : Addr) : Statement (.call nnn) := (packNNN_and_op _ nnn).trans rfl
theorem seByte (x : RegIdx) (kk : Byte) : Statement (.seByte x kk) := (packXKK_and_op _ x kk).trans rfl
theorem sneByte (x : RegIdx) (kk : Byte) : Statement (.sneByte x kk) := (packXKK_and_op _ x kk).trans rfl
theorem seReg (x y : RegIdx) : Statement (.seReg x y) := (packXYN_and_op _ x y _).trans rfl
theorem ldByte (x : RegIdx) (kk : Byte) : Statement (.ldByte x kk) := (packXKK_and_op _ x kk).trans rfl
theorem addByte (x : RegIdx) (kk : Byte) : Statement (.addByte x kk) := (packXKK_and_op _ x kk).trans rfl
theorem ldReg (x y : RegIdx) : Statement (.ldReg x y) := (packXYN_and_opn _ x y _).trans rfl
theorem orReg (x y : RegIdx) : Statement (.orReg x y) := (packXYN_and_opn _ x y _).trans rfl
theorem andReg (x y : RegIdx) : Statement (.andReg x y) := (packXYN_and_opn _ x y _).trans rfl
theorem xorReg (x y : RegIdx) : Statement (.xorReg x y) := (packXYN_and_opn _ x y _).trans rfl
theorem addReg (x y : RegIdx) : Statement (.addReg x y) := (packXYN_and_opn _ x y _).trans rfl
theorem subReg (x y : RegIdx) : Statement (.subReg x y) := (packXYN_and_opn _ x y _).trans rfl
theorem shr (x y : RegIdx) : Statement (.shr x y) := (packXYN_and_opn _ x y _).trans rfl
theorem subnReg (x y : RegIdx) : Statement (.subnReg x y) := (packXYN_and_opn _ x y _).trans rfl
theorem shl (x y : RegIdx) : Statement (.shl x y) := (packXYN_and_opn _ x y _).trans rfl
theorem sneReg (x y : RegIdx) : Statement (.sneReg x y) := (packXYN_and_op _ x y _).trans rfl
theorem ldI (nnn : Addr) : Statement (.ldI nnn) := (packNNN_and_op _ nnn).trans rfl
theorem jpV0 (nnn : Addr) : Statement (.jpV0 nnn) := (packNNN_and_op _ nnn).trans rfl
theorem rnd (x : RegIdx) (kk : Byte) : Statement (.rnd x kk) := (packXKK_and_op _ x kk).trans rfl
theorem drw (x y : RegIdx) (n : Nibble) : Statement (.drw x y n) := (packXYN_and_op _ x y n).trans rfl
theorem skp (x : RegIdx) : Statement (.skp x) := (packXKK_and_opkk _ x _).trans rfl
theorem sknp (x : RegIdx) : Statement (.sknp x) := (packXKK_and_opkk _ x _).trans rfl
theorem ldVxDt (x : RegIdx) : Statement (.ldVxDt x) := (packXKK_and_opkk _ x _).trans rfl
theorem ldVxK (x : RegIdx) : Statement (.ldVxK x) := (packXKK_and_opkk _ x _).trans rfl
theorem ldDtVx (x : RegIdx) : Statement (.ldDtVx x) := (packXKK_and_opkk _ x _).trans rfl
theorem ldStVx (x : RegIdx) : Statement (.ldStVx x) := (packXKK_and_opkk _ x _).trans rfl
theorem addI (x : RegIdx) : Statement (.addI x) := (packXKK_and_opkk _ x _).trans rfl
theorem ldF (x : RegIdx) : Statement (.ldF x) := (packXKK_and_opkk _ x _).trans rfl
theorem ldB (x : RegIdx) : Statement (.ldB x) := (packXKK_and_opkk _ x _).trans rfl
theorem storeRegs (x : RegIdx) : Statement (.storeRegs x) := (packXKK_and_opkk _ x _).trans rfl
theorem loadRegs (x : RegIdx) : Statement (.loadRegs x) := (packXKK_and_opkk _ x _).trans rfl

end Sys2Proof.Laws.EncodingRow
end

