-- ==== Sys2Proof/Tests/Slice0.lean ====
section
/-! SUPPORT. Tests whose expected results come from the spec's encodings and test vectors (spec/95_test_vectors.md), the
ill-formed terms WellFormed refuses, and for every statement with hypotheses a state and operands that meet them. -/

namespace Sys2Proof.Tests

open Sys2Proof.Machine

/-! ### WellFormed refuses each ill-formed term (30_encoding.md R95) -/

theorem test_wellFormed_refuses_sys_0E0 : (Instr.sys 0x0E0).wellFormed = false := by decide
theorem test_wellFormed_refuses_sys_0EE : (Instr.sys 0x0EE).wellFormed = false := by decide
theorem test_wellFormed_accepts_sys_neighbours :
    ((Instr.sys 0x0E1).wellFormed && (Instr.sys 0x1E0).wellFormed && (Instr.sys 0xFFF).wellFormed) = true := by decide

/-! ### Decoding: every constructor, by a word written out from R107 -/

theorem test_decode_control :
    [0x0123, 0x00EE, 0x1228, 0x2300, 0x3342, 0x4342, 0x5120, 0x9120, 0xB300].map decode =
      [.ok (.sys 0x123), .ok .ret, .ok (.jp 0x228), .ok (.call 0x300), .ok (.seByte 3 0x42), .ok (.sneByte 3 0x42),
       .ok (.seReg 1 2), .ok (.sneReg 1 2), .ok (.jpV0 0x300)] := by rfl

theorem test_decode_alu :
    [0x6A2F, 0x7103, 0x8120, 0x8121, 0x8122, 0x8123, 0x8014, 0x8015, 0x8126, 0x8017, 0x812E, 0xC30F].map decode =
      [.ok (.ldByte 0xA 0x2F), .ok (.addByte 1 3), .ok (.ldReg 1 2), .ok (.orReg 1 2), .ok (.andReg 1 2),
       .ok (.xorReg 1 2), .ok (.addReg 0 1), .ok (.subReg 0 1), .ok (.shr 1 2), .ok (.subnReg 0 1), .ok (.shl 1 2),
       .ok (.rnd 3 0x0F)] := by rfl

theorem test_decode_index_display_input :
    [0xA2F0, 0xF21E, 0xF029, 0xF033, 0xF255, 0xF265, 0x00E0, 0xD125, 0xE29E, 0xE2A1, 0xF507, 0xF30A, 0xF515, 0xF618].map
        decode =
      [.ok (.ldI 0x2F0), .ok (.addI 2), .ok (.ldF 0), .ok (.ldB 0), .ok (.storeRegs 2), .ok (.loadRegs 2), .ok .cls,
       .ok (.drw 1 2 5), .ok (.skp 2), .ok (.sknp 2), .ok (.ldVxDt 5), .ok (.ldVxK 3), .ok (.ldDtVx 5),
       .ok (.ldStVx 6)] := by rfl

/-- T-E8, T-E11, T-E13 -/
theorem test_decode_unknown :
    [0x8008, 0x800D, 0x800F, 0xE100, 0xE19F, 0xE1A0, 0xF000, 0xF0FF, 0xF056, 0xF090].map decode =
      [0x8008, 0x800D, 0x800F, 0xE100, 0xE19F, 0xE1A0, 0xF000, 0xF0FF, 0xF056, 0xF090].map
        (fun w => .error (.unknownInstruction w)) := by rfl

/-- The assembler texts of the example program (R105, R109), and a listing line -/
theorem test_assembler_text :
    (Instr.drw 1 2 5).text = "DRW V1, V2, 5" ∧ (Instr.storeRegs 0xF).text = "LD [I], VF" ∧
    (Instr.jpV0 0x300).text = "JP V0, 0x300" ∧ listingLine 0x600A (.ldByte 0 0x0A) = "600A  LD V0, 0x0A" := by decide
/-- A truncated list of bytes is rejected by name; the rest of a longer one is handed on (R90, R70). -/
theorem test_decodeBytes :
    decodeBytes [0x12] = .error .truncated ∧ decodeBytes [] = .error .truncated ∧
    decodeBytes [0x12, 0x28, 0xFF] = .ok (.jp 0x228, [0xFF]) := by exact ⟨rfl, rfl, rfl⟩

theorem test_decodeTableWord :
    decodeTableWord 16 0xD125 = some (.drw 1 2 5) ∧ decodeTableWord 16 0x00E0 = some .cls ∧
    decodeTableWord 16 0x8008 = none := by decide

/-! ### A small state, and one step on a placed word -/

/-- The reset state at 500 Hz (TIMER_PERIOD 9), with one input snapshot: keys 5 and 9 down, key 5 last, random byte 0xA7. -/
def small : State :=
  { State.reset with
    config := { cpuFreqHz := 500, shiftVariant := .ignoreVy }
    inputs := [{ keyDown := 0x0220, keyLast := 5, rnd := 0xA7 }] }

/-- The same with no key down. -/
def noKey : State := { small with inputs := [{ keyDown := 0, keyLast := 5, rnd := 0 }] }

/-- Some registers set. -/
def State.withRegs (s : State) (l : List (RegIdx × Byte)) : State := l.foldl (fun s p => s.setReg p.1 p.2) s

/-- The state after one step on a word placed where the step fetches. -/
def after (s : State) (w : Nat) : State :=
  match step (s.withFetchWord 16 w) with
  | .next t => t
  | .fault _ => s
  | .refused _ => s

/-- The rows of the screen's columns, as numbers: bit `py` of entry `px` is pixel (px, py). -/
def columns (s : State) (from_ n : Nat) : List Nat :=
  (List.range n).map fun k =>
    (List.range 32).foldr (fun py acc => 2 * acc + if s.fb.pixel (Fin.ofNat 64 (from_ + k)) (Fin.ofNat 32 py) then 1 else 0) 0

/-! ### One step of each instruction, from the vectors -/

/-- T-C1 -/
theorem test_sys : (after { small with pc := 0x2FE } 0x0123).pc = 0x300 := by decide
/-- T-C5 -/
theorem test_ret :
    let t := after { small with pc := 0x300, sp := 1, stack := small.stack.set 1 0x202 } 0x00EE
    t.pc = 0x202 ∧ t.sp = 0 ∧ t.stackAt 1 = 0x202 := by decide
/-- T-C6 -/
theorem test_ret_underflow : let t := after small 0x00EE; t.pc = 0 ∧ t.sp = 0xFF := by decide
/-- T-C2 -/
theorem test_jp : (after small 0x1228).pc = 0x228 := by decide
/-- T-C4 -/
theorem test_call : let t := after small 0x2300; t.sp = 1 ∧ t.stackAt 1 = 0x202 ∧ t.pc = 0x300 := by decide
/-- T-C9 -/
theorem test_call_wraps :
    let t := after { small with sp := 0xFF } 0x2300; t.sp = 0 ∧ t.stackAt 0 = 0x202 ∧ t.pc = 0x300 := by decide
/-- T-C10, T-C11 -/
theorem test_seByte :
    (after (State.withRegs small [(3, 0x42)]) 0x3342).pc = 0x204 ∧
    (after (State.withRegs small [(3, 0x41)]) 0x3342).pc = 0x202 := by decide
/-- T-C12 -/
theorem test_sneByte :
    (after (State.withRegs small [(3, 0x41)]) 0x4342).pc = 0x204 ∧
    (after (State.withRegs small [(3, 0x42)]) 0x4342).pc = 0x202 := by decide
/-- T-C14 -/
theorem test_seReg : (after (State.withRegs small [(1, 7), (2, 7)]) 0x5127).pc = 0x204 := by decide
/-- T-C16 -/
theorem test_sneReg :
    (after (State.withRegs small [(1, 7), (2, 8)]) 0x9120).pc = 0x204 ∧ (after small 0x9110).pc = 0x202 := by decide
/-- T-C18 -/
theorem test_jpV0 : (after (State.withRegs small [(0, 0xFF)]) 0xBFFF).pc = 0x10FE := by decide

/-- T-A1 -/
theorem test_ldByte : (after small 0x6A2F).reg 0xA = 0x2F := by decide
/-- T-A3 -/
theorem test_addByte :
    let t := after (State.withRegs small [(1, 0xFE), (0xF, 0x55)]) 0x7103; t.reg 1 = 1 ∧ t.reg 0xF = 0x55 := by decide
/-- T-A6 -/
theorem test_ldReg : (after (State.withRegs small [(2, 0x55)]) 0x8120).reg 1 = 0x55 := by decide
/-- T-A7 -/
theorem test_orReg :
    let t := after (State.withRegs small [(1, 0xF0), (2, 0x0F), (0xF, 0x77)]) 0x8121
    t.reg 1 = 0xFF ∧ t.reg 0xF = 0x77 := by decide
/-- T-A8 -/
theorem test_andReg :
    let t := after (State.withRegs small [(1, 0xF0), (2, 0x3C), (0xF, 0x77)]) 0x8122
    t.reg 1 = 0x30 ∧ t.reg 0xF = 0x77 := by decide
/-- T-A9 -/
theorem test_xorReg : (after (State.withRegs small [(1, 0xF0), (2, 0x3C)]) 0x8123).reg 1 = 0xCC := by decide
/-- T-A12 -/
theorem test_addReg :
    let t := after (State.withRegs small [(0, 0x80), (1, 0x80)]) 0x8014; t.reg 0 = 0 ∧ t.reg 0xF = 1 := by decide
/-- T-A15: the destination is VF, the result remains -/
theorem test_addReg_vf : (after (State.withRegs small [(0xF, 1), (1, 0xFF)]) 0x8F14).reg 0xF = 0 := by decide
/-- T-A19: equal operands give no-borrow 0 -/
theorem test_subReg :
    let t := after (State.withRegs small [(0, 0x42), (1, 0x42), (0xF, 1)]) 0x8015; t.reg 0 = 0 ∧ t.reg 0xF = 0 := by decide
/-- T-A22: VF as the second operand is its old value -/
theorem test_subReg_vf :
    let t := after (State.withRegs small [(0, 0), (0xF, 1)]) 0x80F5; t.reg 0 = 0xFF ∧ t.reg 0xF = 0 := by decide
/-- T-A27, IGNORE_VY -/
theorem test_shr :
    let t := after (State.withRegs small [(0, 1), (1, 4)]) 0x8016
    t.reg 0 = 0 ∧ t.reg 0xF = 1 ∧ t.reg 1 = 4 := by decide
/-- T-A27, FROM_VY -/
theorem test_shr_fromVy :
    let s := { small with config := { small.config with shiftVariant := .fromVy } }
    let t := after (State.withRegs s [(0, 1), (1, 4)]) 0x8016
    t.reg 0 = 2 ∧ t.reg 0xF = 0 ∧ t.reg 1 = 4 := by decide
/-- T-A29 -/
theorem test_subnReg :
    let t := after (State.withRegs small [(0, 0x0A), (1, 1)]) 0x8017; t.reg 0 = 0xF7 ∧ t.reg 0xF = 0 := by decide
/-- T-A36, IGNORE_VY -/
theorem test_shl :
    let t := after (State.withRegs small [(0, 0x80), (1, 0x81)]) 0x801E; t.reg 0 = 0 ∧ t.reg 0xF = 1 := by decide
/-- T-A36, FROM_VY -/
theorem test_shl_fromVy :
    let s := { small with config := { small.config with shiftVariant := .fromVy } }
    let t := after (State.withRegs s [(0, 0), (1, 0x81)]) 0x801E
    t.reg 0 = 2 ∧ t.reg 0xF = 1 := by decide
/-- T-A37 -/
theorem test_rnd : (after small 0xC30F).reg 3 = 0x07 := by decide

/-- T-M1 -/
theorem test_ldI : (after small 0xA2F0).i = 0x2F0 := by decide
/-- T-M4 -/
theorem test_addI :
    let t := after (State.withRegs { small with i := 0xFFFF } [(0, 1), (0xF, 0)]) 0xF01E
    t.i = 0 ∧ t.reg 0xF = 0 ∧ t.events = [] := by decide
/-- T-M5 -/
theorem test_ldF : (after (State.withRegs small [(0, 0x1A)]) 0xF029).i = 0x032 := by decide
/-- T-M6 -/
theorem test_ldB :
    let t := after (State.withRegs { small with i := 0x300 } [(0, 123)]) 0xF033
    [0x300, 0x301, 0x302].map t.byteAt = [1, 2, 3] ∧ t.i = 0x300 := by decide
/-- T-M7 -/
theorem test_ldB_edge :
    let t := after (State.withRegs { small with i := 0xFFE } [(0, 0xFF)]) 0xF033
    [0xFFE, 0xFFF].map t.byteAt = [2, 5] ∧ t.events = [.outOfRange 0x1000 .write] := by decide
/-- T-M8 -/
theorem test_storeRegs :
    let t := after (State.withRegs { small with i := 0x300, mem := [(0x303, 0xAA)] } [(0, 1), (1, 2), (2, 3)]) 0xF255
    [0x300, 0x301, 0x302, 0x303].map t.byteAt = [1, 2, 3, 0xAA] ∧ t.i = 0x300 := by decide
/-- T-M11 -/
theorem test_loadRegs :
    let m : Memory := [(0x300, 1), (0x301, 2), (0x302, 3), (0x303, 4)]
    let t := after (State.withRegs { small with i := 0x300, mem := m } [(3, 0x99)]) 0xF265
    t.reg 0 = 1 ∧ t.reg 1 = 2 ∧ t.reg 2 = 3 ∧ t.reg 3 = 0x99 := by decide
/-- T-M12: out of range loads 0, with one event a byte -/
theorem test_loadRegs_edge :
    let m : Memory := [(0xFFE, 0x12), (0xFFF, 0x34)]
    let t := after (State.withRegs { small with i := 0xFFE, mem := m } [(2, 0x77), (3, 0x77)]) 0xF365
    t.reg 0 = 0x12 ∧ t.reg 1 = 0x34 ∧ t.reg 2 = 0 ∧ t.reg 3 = 0 ∧
    t.events = [.outOfRange 0x1000 .read, .outOfRange 0x1001 .read] := by decide

/-- T-D1 -/
theorem test_cls :
    let t := after { small with fb := small.fb.setPixel 3 4 true } 0x00E0
    t.fb.pixel 3 4 = false ∧ t.dirty = true := by decide
/-- T-D3: glyph A drawn at column 62 wraps to columns 0 and 1 -/
theorem test_drw_wraps :
    let t := after (State.withRegs { small with i := 0x032 } [(1, 62), (2, 0)]) 0xD125
    columns t 62 2 = [0x1F, 0x05] ∧ columns t 0 3 = [0x05, 0x1F, 0] ∧ t.reg 0xF = 0 ∧ t.dirty = true := by decide
/-- T-D12: a lit pixel under the sprite goes out and sets VF -/
theorem test_drw_collides :
    let t := after (State.withRegs { small with i := 0x032, fb := small.fb.setPixel 10 10 true } [(1, 10), (2, 10)]) 0xD125
    t.fb.pixel 10 10 = false ∧ t.fb.pixel 11 10 = true ∧ t.reg 0xF = 1 := by decide

/-- T-K1, T-K3 -/
theorem test_skp :
    (after (State.withRegs small [(2, 0x15)]) 0xE29E).pc = 0x204 ∧
    (after (State.withRegs noKey [(2, 5)]) 0xE29E).pc = 0x202 := by decide
/-- T-K4, T-K5 -/
theorem test_sknp :
    (after (State.withRegs noKey [(2, 5)]) 0xE2A1).pc = 0x204 ∧
    (after (State.withRegs small [(2, 5)]) 0xE2A1).pc = 0x202 := by decide
/-- T-K6 -/
theorem test_ldVxK_stores :
    let t := after small 0xF30A; t.reg 3 = 5 ∧ t.pc = 0x202 ∧ t.waitKey = none ∧ t.tickCount = 1 := by decide
/-- T-K8 -/
theorem test_ldVxK_waits :
    let t := after { noKey with dt := 5 } 0xF30A
    t.pc = 0x202 ∧ t.waitKey = some 3 ∧ t.tickCount = 0 ∧ t.dt = 5 := by decide
/-- T-T10: the read precedes the tick's decrement -/
theorem test_ldVxDt :
    let t := after { small with dt := 5, tickCount := 8 } 0xF507; t.reg 5 = 5 ∧ t.dt = 4 ∧ t.tickCount = 0 := by decide
/-- T-T9: the value written is decremented at the end of the tick -/
theorem test_ldDtVx :
    let t := after (State.withRegs { small with tickCount := 8 } [(5, 5)]) 0xF515; t.dt = 4 ∧ t.tickCount = 0 := by decide
/-- T-T5 -/
theorem test_ldStVx :
    let t := after { small with st := 5 } 0xF018; t.st = 0 ∧ t.events = [] := by decide

/-! ### The step -/

/-- T-X1 -/
theorem test_step_unknown :
    let t := after small 0x8008; t.pc = 0x202 ∧ t.events = [.unknownInstruction 0x8008] := by decide
/-- What a step from a state leaves, on what the memory holds. -/
def stepped (s : State) : State :=
  match step s with
  | .next t => t
  | .fault _ => s
  | .refused _ => s
/-- T-X3 -/
theorem test_step_half_out_of_range :
    let t := stepped { small with pc := 0xFFF, mem := [(0xFFF, 0xE5)] }
    t.pc = 0x1001 ∧ t.events = [.outOfRange 0x1000 .read, .unknownInstruction 0xE500] := by decide
/-- T-X6 -/
theorem test_step_pc_wraps :
    let t := stepped { small with pc := 0xFFFF }
    t.pc = 0x0001 ∧ t.events = [.outOfRange 0xFFFF .read] := by decide
/-- T-X7 -/
theorem test_step_runs_the_font :
    let t := stepped { small with pc := 0 }; t.pc = 2 ∧ t.events = [.unknownInstruction 0xF090] := by decide
/-- T-K10 -/
theorem test_step_poll_ends_the_wait :
    let t := stepped { small with waitKey := some 3, pc := 0x202 }
    t.reg 3 = 5 ∧ t.waitKey = none ∧ t.tickCount = 1 ∧ t.pc = 0x202 := by decide
/-- T-T6 -/
theorem test_timerEvent :
    let t := timerEvent { small with dirty := true, dt := 5, st := 1 }
    t.dirty = false ∧ t.dt = 4 ∧ t.st = 0 ∧ t.events = [.redraw small.fb, .toneStart, .toneStop] :=
  ⟨rfl, rfl, rfl, rfl⟩
/-- T-T11 -/
theorem test_timerPeriod :
    [1, 60, 61, 360, 361, 500, 540, 600, 700].map (fun f => timerPeriod { cpuFreqHz := f, shiftVariant := .ignoreVy }) =
      [1, 1, 2, 6, 7, 9, 9, 10, 12] := by decide
/-- T-R3, at its edge: the byte after 0xFFF is dropped -/
theorem test_loadRom_edge :
    let t := hostLoadFrom 0xFFF [0x12, 0xAB] small
    t.byteAt 0xFFF = 0x12 ∧ t.events = [.outOfRange 0x1000 .write] := by decide
/-- T-R4, from the reset state itself, its open frequency and its free inputs. -/
theorem test_reset_first_step : (stepped State.reset).pc = 0x202 := by decide
/-- The first instruction after reset runs with the open frequency and free inputs unknown. -/
theorem test_reset_runs_a_placed_word : (after State.reset 0x6A2F).reg 0xA = 0x2F ∧ (after State.reset 0x6A2F).pc = 0x202 := by
  decide
/-- R275: a jump to itself is recognised. -/
theorem test_selfJump : (small.withFetchWord 16 0x1200).atSelfJump = true ∧ small.atSelfJump = false := by decide

/-! ### Hypotheses are met: one witness for every statement that has some -/

theorem witness_DecodeEncodeRoundTrip :
    (Instr.sys 0xFFF).wellFormed = true ∧ (Instr.sys 0x0DF).wellFormed = true ∧ (Instr.drw 0xF 0xF 0xF).wellFormed = true := by
  decide
theorem witness_EncodeDecodeGivesTheWord :
    decode 0x5127 = .ok (.seReg 1 2) ∧ opField 0x5127 = 0x5 ∧ decode 0x8127 = .ok (.subnReg 1 2) ∧ opField 0x8127 = 0x8 :=
  ⟨rfl, rfl, rfl, rfl⟩
/-- Each unknown class at its edge, and the neighbouring words that decode. -/
theorem witness_UnknownWordsAreExactlyThese :
    [0x8008, 0x8FFF, 0xE000, 0xEF9F, 0xF000, 0xFFFF].map decode =
      [0x8008, 0x8FFF, 0xE000, 0xEF9F, 0xF000, 0xFFFF].map (fun w => .error (.unknownInstruction w)) ∧
    [0x7FFF, 0x8007, 0x9000, 0xEF9E, 0xEFA1, 0xFF65].map decode =
      [.ok (.addByte 0xF 0xFF), .ok (.subnReg 0 0), .ok (.sneReg 0 0), .ok (.skp 0xF), .ok (.sknp 0xF),
       .ok (.loadRegs 0xF)] := ⟨rfl, rfl⟩
theorem witness_StepRunsTheDecodedInstruction :
    ∃ t, (small.withFetchWord 16 0xD125).waitKey = none ∧
      decode (small.withFetchWord 16 0xD125).fetchWord = .ok (.drw 1 2 5) ∧
      exec (.drw 1 2 5) (small.withFetchWord 16 0xD125).afterFetch = .next t := ⟨_, rfl, rfl, rfl⟩
theorem witness_UnknownInstructionOnlyRaisesItsEvent :
    (small.withFetchWord 16 0x8008).waitKey = none ∧
    decode (small.withFetchWord 16 0x8008).fetchWord =
      .error (.unknownInstruction (small.withFetchWord 16 0x8008).fetchWord) := ⟨rfl, rfl⟩
theorem witness_canonical_memory : small.mem.wf ∧ Memory.wf [(0x300, 1), (0xFFF, 2)] := ⟨Memory.wf_nil, by decide⟩
theorem witness_step_with_no_wait : ∃ t, small.waitKey = none ∧ step small = .next t := ⟨_, rfl, rfl⟩
theorem witness_EveryStepKeepsTheInvariant : ∃ t, small.Inv ∧ step small = .next t :=
  ⟨_, ⟨Memory.wf_nil, by decide, by decide⟩, rfl⟩
/-- The last tick before a 60 Hz event meets the invariant too. -/
theorem witness_invariant_at_the_last_tick : State.Inv { small with tickCount := 8 } :=
  ⟨Memory.wf_nil, by decide, by decide⟩
theorem witness_step_of_a_wait_and_of_an_unknown_word :
    (∃ t, step { small with waitKey := some 0xF } = .next t) ∧
    (∃ t, step (small.withFetchWord 16 0xFFFF) = .next t ∧
      ∀ i, decode (small.withFetchWord 16 0xFFFF).fetchWord ≠ .ok i) :=
  ⟨⟨_, rfl⟩, _, rfl, fun i h => by
    have e : decode (small.withFetchWord 16 0xFFFF).fetchWord = .error (.unknownInstruction 0xFFFF) := rfl
    rw [e] at h
    cases h⟩
theorem witness_exec_changes_I_DT_ST_and_wait :
    (∃ t, exec (.ldI 0x2F0) small = .next t ∧ t.i ≠ small.i) ∧
    (∃ t, exec (.ldDtVx 5) (small.setReg 5 1) = .next t ∧ t.dt ≠ (small.setReg 5 1).dt) ∧
    (∃ t, exec (.ldStVx 5) (small.setReg 5 1) = .next t ∧ t.st ≠ (small.setReg 5 1).st) ∧
    (∃ t, exec (.ldVxK 5) noKey = .next t ∧ t.waitKey ≠ noKey.waitKey) :=
  ⟨⟨_, rfl, by decide⟩, ⟨_, rfl, by decide⟩, ⟨_, rfl, by decide⟩, ⟨_, rfl, by decide⟩⟩
theorem witness_exec_changes_the_display : ∃ t, exec .cls small = .next t ∧ t.dirty ≠ small.dirty ∧
    ∃ u, exec .cls t = .next u ∧ t.dirty = true := ⟨_, rfl, by decide, _, rfl, rfl⟩
theorem witness_exec_changes_memory_and_stack :
    (∃ t a, exec (.storeRegs 0) (State.withRegs { small with i := 0xFFF } [(0, 7)]) = .next t ∧
      t.mem.read a ≠ small.mem.read a) ∧
    (∃ t j, exec (.call 0x300) { small with pc := 0x202 } = .next t ∧ t.stackAt j ≠ small.stackAt j) :=
  ⟨⟨_, 0xFFF, rfl, by decide⟩, ⟨_, 1, rfl, by decide⟩⟩
theorem witness_exec_changes_a_register :
    (∃ t, exec (.ldByte 3 7) small = .next t ∧ t.reg 3 ≠ small.reg 3) ∧
    (∃ t, exec (.addReg 0 1) (State.withRegs small [(0, 0xFF), (1, 0xFF)]) = .next t ∧ t.reg 0xF ≠ 0) ∧
    (∃ t, exec (.loadRegs 2) small = .next t ∧ t.reg 2 ≠ small.reg 2) :=
  ⟨⟨_, rfl, by decide⟩, ⟨_, rfl, by decide⟩, ⟨_, rfl, by decide⟩⟩
theorem witness_ConstructionLoadsTheFont : ∃ font : Vector Byte 80, font.toList = defaultFont :=
  ⟨⟨defaultFont.toArray, by decide⟩, rfl⟩
/-- Both sides of the bound: 0xFFF is in memory, 0x1000 is not. -/
theorem witness_MemoryPrimitivesCheckBounds :
    small.mem.wf ∧ memRead 0xFFF { small with mem := [(0xFFF, 7)] } = (7, { small with mem := [(0xFFF, 7)] }) ∧
    (memRead 0x1000 small).1 = 0 := ⟨Memory.wf_nil, rfl, rfl⟩
theorem witness_StoreIsSeenByTheNextFetch :
    ∃ t, small.mem.wf ∧ State.i { small with i := 0xFFE, pc := 0xFFE } = 0xFFE ∧
      exec (.storeRegs 1) { small with i := 0xFFE, pc := 0xFFE } = .next t := ⟨_, Memory.wf_nil, rfl, rfl⟩
theorem witness_CallsAndReturnsPair : (List.replicate 16 ((0x202, 0x300) : Word × Addr)).length ≤ 16 := by decide
theorem witness_VF_is_not_the_destination : (0xE : RegIdx) ≠ VF ∧ VF = 0xF := by decide
/-- Digits in memory and the units digit out of it. -/
theorem witness_BcdStoresThreeDigits :
    small.mem.wf ∧ effAddr 0xFFE 1 ≤ 0xFFF ∧ ¬ effAddr 0xFFE 2 ≤ 0xFFF ∧ effAddr 0xFFFF 1 ≤ 0xFFF :=
  ⟨Memory.wf_nil, by decide, by decide, by decide⟩
theorem witness_BcdDigitsRecomposeTheValue :
    ∃ t, small.mem.wf ∧ (0xFFD#16).toNat + 2 ≤ 0xFFF ∧ exec (.ldB 0xF) { small with i := 0xFFD } = .next t :=
  ⟨_, Memory.wf_nil, by decide, rfl⟩
theorem witness_StoreThenLoadGivesTheRegistersBack :
    ∃ t, small.mem.wf ∧ exec (.storeRegs 0xF) { small with i := 0xFF8 } = .next t := ⟨_, Memory.wf_nil, rfl⟩
theorem witness_DrawingTwiceRestoresTheScreen :
    ∃ t, exec (.drw 1 2 5) { small with i := 0x032 } = .next t ∧ t.reg 1 = small.reg 1 ∧ t.reg 2 = small.reg 2 :=
  ⟨_, rfl, by decide, by decide⟩
theorem witness_SpritesWrapAround :
    ∃ t u, small.fb = Framebuffer.clear ∧ ((small.setReg 1 0).setReg 2 0).fb = Framebuffer.clear ∧
      ((small.setReg 1 0).setReg 2 0).i = small.i ∧ ((small.setReg 1 0).setReg 2 0).mem = small.mem ∧
      ((small.setReg 1 0).setReg 2 0).reg 1 = 0 ∧ ((small.setReg 1 0).setReg 2 0).reg 2 = 0 ∧
      exec (.drw 1 2 5) small = .next t ∧ exec (.drw 1 2 5) ((small.setReg 1 0).setReg 2 0) = .next u :=
  ⟨_, _, rfl, rfl, rfl, rfl, by decide, by decide, rfl, rfl⟩
theorem witness_both_key_cases : small.input.keyDown ≠ 0 ∧ noKey.input.keyDown = 0 := by decide
theorem witness_KeyWaitPollsUntilAKeyIsDown :
    State.waitKey { small with waitKey := some 0xF } = some 0xF ∧ State.waitKey { noKey with waitKey := some 0 } = some 0 :=
  ⟨rfl, rfl⟩
theorem witness_TimerTransfersPrecedeTheTickEnd :
    ∃ t u, State.tickCount { small with tickCount := 8 } + 1 = timerPeriod small.config ∧
      step (State.withFetchWord { small with tickCount := 8 } 16 0xF515) = .next t ∧
      decode (State.withFetchWord { small with tickCount := 8 } 16 0xF515).fetchWord = .ok (.ldDtVx 5) ∧
      step (State.withFetchWord { small with tickCount := 8 } 16 0xF507) = .next u ∧
      decode (State.withFetchWord { small with tickCount := 8 } 16 0xF507).fetchWord = .ok (.ldVxDt 5) :=
  ⟨_, _, rfl, rfl, rfl, rfl, rfl⟩
theorem witness_SoundTimer_silent_and_sounding : small.st = 0 ∧ State.st { small with st := 0xFF } ≠ 0 := by decide
theorem witness_EndTick_both_cases :
    State.tickCount { small with tickCount := 8 } + 1 = timerPeriod small.config ∧
    State.tickCount { small with tickCount := 7 } + 1 ≠ timerPeriod small.config := by decide

end Sys2Proof.Tests
end

section
/-! PROOFS. The family of 10_state.md: SP (R28). -/

namespace Sys2Proof.Machine

/-! ### What a step can do (30_encoding.md R101) -/

/-- A step is a poll of the pending key wait, the tick of a decoded instruction, or the tick of an unknown word. -/
theorem step_cases {s t : State} (h : step s = .next t) :
    (∃ x, s.waitKey = some x ∧ t = (pollKey x s).useInput) ∨
    (∃ i u, s.waitKey = none ∧ decode s.fetchWord = .ok i ∧ exec i s.afterFetch = .next u ∧ t = finishTick u) ∨
    (∃ e, s.waitKey = none ∧ decode s.fetchWord = .error e ∧
      t = finishTick (s.afterFetch.unknownInstruction s.fetchWord)) := by
  unfold step at h
  split at h
  case h_1 x hw => exact .inl ⟨x, hw, (Host.Outcome.next.inj h).symm⟩
  case h_2 hw =>
    split at h
    case h_1 i hd =>
      split at h
      case h_1 u hu => exact .inr (.inl ⟨i, u, hw, hd, hu, (Host.Outcome.next.inj h).symm⟩)
      case h_2 | h_3 => cases h
    case h_2 e hd => exact .inr (.inr ⟨e, hw, hd, (Host.Outcome.next.inj h).symm⟩)

/-! ### The shared operations leave SP alone -/

@[simp] theorem readBytes_sp (base : Word) (k n : Nat) (s : State) : (readBytes base k n s).2.sp = s.sp := by
  rw [readBytes_eq]

@[simp] theorem writeBytes_sp (base : Word) (k : Nat) (bs : List Byte) (s : State) :
    (writeBytes base k bs s).sp = s.sp := by
  rw [writeBytes_eq]

@[simp] theorem writeRegs_sp (k : Nat) (bs : List Byte) (s : State) : (writeRegs k bs s).sp = s.sp := by
  rw [writeRegs_eq]

@[simp] theorem afterFetch_sp (s : State) : s.afterFetch.sp = s.sp := by
  rw [afterFetch_eq]

@[simp] theorem pollKey_sp (x : RegIdx) (s : State) : (pollKey x s).sp = s.sp := by
  unfold pollKey
  split <;> simp

@[simp] theorem finishTick_sp (s : State) : (finishTick s).sp = s.sp := by
  unfold finishTick
  split <;> simp

/-! ### SP over execute and over a step (R28) -/

/-- What execute makes of SP, as a number: CALL counts it up and RET down, modulo 256 (R28, R31, R32). -/
def spAfter (i : Instr) (sp : Nat) : Nat :=
  match i with
  | .call _ => (sp + 1) % 0x100
  | .ret => (sp + 0xFF) % 0x100
  | _ => sp

/-- The meaning of an instruction other than CALL and RET answers a state with the same SP. -/
theorem exec_sp_of_ne {i : Instr} {s t : State} (hcall : ∀ nnn, i ≠ .call nnn) (hret : i ≠ .ret)
    (h : exec i s = .next t) : t.sp = s.sp := by
  cases i with
  | call nnn => exact absurd rfl (hcall nnn)
  | ret => exact absurd rfl hret
  | drw x y n => cases h; exact readBytes_sp s.i 0 n.toNat s
  | ldB x => cases h; exact writeBytes_sp s.i 0 _ s
  | storeRegs x => cases h; exact writeBytes_sp s.i 0 _ s
  | loadRegs x => cases h; exact (writeRegs_sp 0 _ _).trans (readBytes_sp s.i 0 _ s)
  | ldVxK x => cases h; split <;> rfl
  | _ => cases h; rfl

theorem exec_sp {i : Instr} {s t : State} (h : exec i s = .next t) : t.sp.toNat = spAfter i s.sp.toNat := by
  cases i with
  | call nnn => cases h; exact BitVec.toNat_add s.sp 1
  | ret =>
    cases h
    show (s.sp - 1).toNat = (s.sp.toNat + 0xFF) % 0x100
    rw [BitVec.toNat_sub, Nat.add_comm]
    rfl
  | _ => exact congrArg BitVec.toNat (exec_sp_of_ne (by simp) (by simp) h)

/-- Settles O15: execute by cases on the instruction, a step by cases on what it can do, with the end of the tick and the
fetch leaving SP alone. -/
theorem onlyCallAndRetChangeSp : Obligations.OnlyCallAndRetChangeSp := by
  refine ⟨rfl, fun i s t h => exec_sp h, fun s t h => ?_⟩
  obtain ⟨x, hw, rfl⟩ | ⟨i, u, hw, hd, hu, rfl⟩ | ⟨e, hw, hd, rfl⟩ := step_cases h
  · simp [hw]
  · rw [finishTick_sp, exec_sp hu, afterFetch_sp, hw, hd]
    cases i <;> rfl
  · simp [hw, hd]

end Sys2Proof.Machine
end

section
/-! PROOFS. The family of 42_index_memory.md: the digits LD B, Vx stores (R173, R178). -/

namespace Sys2Proof.Machine

/-- An address that does not pass the top of the 16-bit space does not wrap (R68). -/
theorem effAddr_eq_add {base : Word} {k : Nat} (h : base.toNat + k < 0x10000) : effAddr base k = base.toNat + k :=
  Nat.mod_eq_of_lt h

/-- `read_writeBytes` for a whole transfer, in terms of the byte an access sees. -/
theorem byteAt_writeBytes (base : Word) (bs : List Byte) {s : State} (hm : s.mem.wf) (hlen : bs.length ≤ 0x10000)
    {k : Nat} (hk : k < bs.length) (ha : effAddr base k ≤ memTop) :
    (writeBytes base 0 bs s).byteAt (effAddr base k) = bs[k] := by
  have hr := read_writeBytes base 0 bs hm (by rwa [Nat.zero_add]) hk (by rwa [Nat.zero_add])
  rw [Nat.zero_add] at hr
  exact (if_pos ha).trans hr

/-! ### The decimal digits of a byte (R173, R178) -/

@[simp] theorem length_bcdDigits (b : Byte) : (bcdDigits b).length = 3 := rfl

/-- A digit of a byte fits in a byte, so storing it loses nothing. -/
theorem map_toNat_bcdDigits (b : Byte) :
    (bcdDigits b).map BitVec.toNat = [b.toNat / 100, b.toNat / 10 % 10, b.toNat % 10] := by
  have hb : b.toNat < 256 := b.isLt
  have fits : ∀ n < 256, (BitVec.ofNat 8 n).toNat = n := fun n hn => Nat.mod_eq_of_lt hn
  simp only [bcdDigits, List.map_cons, List.map_nil]
  rw [fits _ (by omega), fits _ (by omega), fits _ (by omega)]

/-- The hundreds digit is at most 2 because the byte is at most 255; the others are remainders modulo 10. -/
theorem toNat_le_nine_of_mem_bcdDigits {b d : Byte} (h : d ∈ bcdDigits b) : d.toNat ≤ 9 := by
  have hb : b.toNat < 256 := b.isLt
  have hd : d.toNat ∈ (bcdDigits b).map BitVec.toNat := List.mem_map_of_mem h
  simp only [map_toNat_bcdDigits, List.mem_cons, List.not_mem_nil, or_false] at hd
  omega

theorem bcdDigits_recompose (b : Byte) :
    100 * (bcdDigits b)[0].toNat + 10 * (bcdDigits b)[1].toNat + (bcdDigits b)[2].toNat = b.toNat := by
  obtain ⟨hh, ht, hu⟩ : (bcdDigits b)[0].toNat = b.toNat / 100 ∧ (bcdDigits b)[1].toNat = b.toNat / 10 % 10 ∧
      (bcdDigits b)[2].toNat = b.toNat % 10 := by
    simpa [bcdDigits] using map_toNat_bcdDigits b
  omega

/-! ### What LD B, Vx stores (R173) -/

/-- LD B, Vx stores the digits of Vx, hundreds first, at those of its three effective addresses that lie in memory. -/
theorem byteAt_of_exec_ldB {x : RegIdx} {s t : State} (hm : s.mem.wf) (h : exec (.ldB x) s = .next t) {k : Nat}
    (hk : k < (bcdDigits (s.reg x)).length) (ha : effAddr s.i k ≤ memTop) :
    t.byteAt (effAddr s.i k) = (bcdDigits (s.reg x))[k] := by
  cases h
  exact byteAt_writeBytes s.i (bcdDigits (s.reg x)) hm (by simp) hk ha

/-- Settles O42: where the whole triple lies in memory no address wraps, so the stored bytes are the digits of Vx, and
those recompose it. -/
theorem bcdDigitsRecomposeTheValue : Obligations.BcdDigitsRecomposeTheValue := by
  intro x s t hm hi h
  have stored : ∀ k (hk : k < 3), t.byteAt (s.i.toNat + k) = (bcdDigits (s.reg x))[k] := fun k hk => by
    have haddr : effAddr s.i k = s.i.toNat + k := effAddr_eq_add (by omega)
    rw [← haddr]
    exact byteAt_of_exec_ldB hm h hk (by rw [haddr, memTop]; omega)
  refine ⟨?_, fun k => ?_⟩
  · rw [← bcdDigits_recompose (s.reg x), ← stored 0, ← stored 1, ← stored 2]
    rfl
  · rw [stored k k.isLt]
    exact toNat_le_nine_of_mem_bcdDigits (List.getElem_mem _)

end Sys2Proof.Machine
end

section
/-! PROOFS. The family of 43_display.md: what DRW makes of the screen, and wrap-around (R191, R193). -/

namespace Sys2Proof.Machine

/-- The sprite DRW reads from `I` on, one byte per row (R191). -/
def State.spriteAt (s : State) (n : Nibble) : List Byte := (addrsFrom s.i 0 n.toNat).map s.byteAt

theorem length_spriteAt_lt (s : State) (n : Nibble) : (s.spriteAt n).length < 16 := by
  simpa [State.spriteAt, addrsFrom] using n.isLt

/-- Only `I` and memory decide which sprite is read. -/
theorem spriteAt_congr {s s' : State} (hi : s'.i = s.i) (hm : s'.mem = s.mem) (n : Nibble) :
    s'.spriteAt n = s.spriteAt n := by
  have hbyte : s'.byteAt = s.byteAt := funext fun a => by rw [State.byteAt, State.byteAt, hm]
  rw [State.spriteAt, State.spriteAt, hi, hbyte]

/-- DRW inverts the pixels its sprite covers and no other (R191). -/
theorem pixel_of_exec_drw {x y : RegIdx} {n : Nibble} {s t : State} (h : exec (.drw x y n) s = .next t)
    (px : Fin 64) (py : Fin 32) :
    t.fb.pixel px py = (s.fb.pixel px py ^^ spriteCovers (s.reg x) (s.reg y) (s.spriteAt n) px py) := by
  cases h
  have hlen : (s.spriteAt n).length ≤ 32 := (length_spriteAt_lt s n).le.trans (by decide)
  obtain ⟨hpixel, -, -⟩ := drawSprite_spec (s.reg x) (s.reg y) (s.spriteAt n) s.fb hlen
  rw [readBytes_eq]
  exact hpixel px py

/-- Moving the corner by `(cx, cy)` moves the covered pixels by as much, modulo 64 and 32 (R193): the column and the row
of the sprite that lie on a pixel are its distances from the corner, and those do not change. -/
theorem spriteCovers_wrap (cx cy : Byte) (sprite : List Byte) (px : Fin 64) (py : Fin 32) :
    spriteCovers cx cy sprite (Fin.ofNat 64 (cx.toNat + px)) (Fin.ofNat 32 (cy.toNat + py)) =
      spriteCovers 0 0 sprite px py := by
  have hzero : (0 : Byte).toNat = 0 := rfl
  have hcol : ((cx.toNat + px.val) % 64 + 64 - cx.toNat % 64) % 64 = (px.val + 64 - (0 : Byte).toNat % 64) % 64 := by
    omega
  have hrow : ((cy.toNat + py.val) % 32 + 32 - cy.toNat % 32) % 32 = (py.val + 32 - (0 : Byte).toNat % 32) % 32 := by
    omega
  simp only [spriteCovers, Fin.val_ofNat, hcol, hrow]

/-- Settles O49: on a clear screen the lit pixels are the covered ones, both states read the same sprite, and covering
wraps around. -/
theorem spritesWrapAround : Obligations.SpritesWrapAround := by
  intro x y n s s0 t u hs hs0 hi hm hx hy ht hu px py
  rw [pixel_of_exec_drw ht, pixel_of_exec_drw hu, hs, hs0, pixel_clear, pixel_clear, spriteAt_congr hi hm, hx, hy,
    spriteCovers_wrap]

end Sys2Proof.Machine
end

section
/-! PROOFS. The family of 60_exceptions.md: the two countdowns of the 60 Hz event and the tone (R244, R245). -/

namespace Sys2Proof.Machine

/-! ### The countdowns (R244, R245) -/

/-- A countdown is truncated subtraction: 0 stays 0, and a nonzero byte does not borrow. -/
theorem toNat_decay (t : Byte) : (decay t).toNat = t.toNat - 1 := by
  unfold decay
  split
  next ht => rw [ht]; rfl
  next ht =>
    have hpos : 0 < t.toNat := Nat.pos_of_ne_zero fun h0 => ht (BitVec.eq_of_toNat_eq h0)
    exact BitVec.toNat_sub_of_le hpos

/-- A byte of the state that every 60 Hz event counts down is down by `n` after `n` events, stopping at 0. -/
theorem toNat_iterate_timerEvent_of_decay {timer : State → Byte}
    (hdecay : ∀ s, timer (timerEvent s) = decay (timer s)) (n : Nat) (s : State) :
    (timer (timerEvent^[n] s)).toNat = (timer s).toNat - n := by
  induction n with
  | zero => rfl
  | succ n ih => rw [Function.iterate_succ_apply', hdecay, toNat_decay, ih, Nat.sub_sub]

/-- Settles O58: DT is one of the two countdowns, and the event log gets only what `dirty`, the framebuffer and ST give. -/
theorem delayTimerDecaysToZero : Obligations.DelayTimerDecaysToZero := by
  intro s n d
  exact ⟨toNat_iterate_timerEvent_of_decay timerEvent_dt n s, rfl⟩

/-! ### The tone (R245) -/

/-- The tone signals of the event log, in order. -/
def State.tones (s : State) : List Event := s.events.filter fun e => e = .toneStart ∨ e = .toneStop

theorem toneEvents_eq (st : Byte) :
    toneEvents st = if st = 0 then [] else if st = 1 then [.toneStart, .toneStop] else [.toneStart] := by
  simp only [toneEvents, sub_eq_zero]

/-- Redraw is no tone signal, so a 60 Hz event adds its tone events and no other. -/
theorem tones_timerEvent (s : State) : (timerEvent s).tones = s.tones ++ toneEvents s.st := by
  have hredraw : (redrawEvents s).filter (fun e => e = .toneStart ∨ e = .toneStop) = [] := by
    unfold redrawEvents
    split <;> rfl
  have htone : (toneEvents s.st).filter (fun e => e = .toneStart ∨ e = .toneStop) = toneEvents s.st := by
    unfold toneEvents
    split_ifs <;> rfl
  rw [State.tones, timerEvent_events, List.filter_append, List.filter_append, hredraw, htone, List.append_nil,
    State.tones]

/-- A countdown from `n + 1`: the first event emits ToneStart, and the stop is the last event's. -/
theorem tones_iterate_timerEvent {n : Nat} {s : State} (hst : s.st.toNat = n + 1) :
    (timerEvent^[n + 1] s).tones = s.tones ++ (List.replicate (n + 1) .toneStart ++ [.toneStop]) := by
  induction n generalizing s with
  | zero =>
    have hone : s.st = 1 := BitVec.eq_of_toNat_eq hst
    rw [Function.iterate_one, tones_timerEvent, hone]
    rfl
  | succ n ih =>
    have hnext : (timerEvent s).st.toNat = n + 1 := by rw [timerEvent_st, toNat_decay, hst, Nat.add_sub_cancel]
    have hstart : toneEvents s.st = [.toneStart] := by
      have hzero : s.st ≠ 0 := fun h => by simp [h] at hst
      have hone : s.st ≠ 1 := fun h => by simp [h] at hst
      rw [toneEvents_eq, if_neg hzero, if_neg hone]
    rw [Function.iterate_succ_apply, ih hnext, tones_timerEvent, hstart, List.append_assoc]
    rfl

/-- Settles O59: ST is the other countdown, one event adds its tone events, and a nonzero ST gives a whole countdown. -/
theorem soundTimerEmitsTheTone : Obligations.SoundTimerEmitsTheTone := by
  intro s
  refine ⟨toNat_decay s.st, (tones_timerEvent s).trans (by rw [toneEvents_eq]; rfl), BitVec.eq_of_toNat_eq ?_, ?_⟩
  · rw [toNat_iterate_timerEvent_of_decay timerEvent_st, Nat.sub_self]
    rfl
  · split_ifs with hst
    · rw [hst, List.append_nil]
      rfl
    · obtain ⟨n, hn⟩ := Nat.exists_eq_succ_of_ne_zero fun h0 => hst (BitVec.eq_of_toNat_eq h0)
      rw [hn]
      exact tones_iterate_timerEvent hn

end Sys2Proof.Machine
end

section
/-! PROOFS. The family of 70_reset_and_hazards.md: the core always has a next step (R274). -/

namespace Sys2Proof.Machine

/-! ### What a step answers, case by case (30_encoding.md R101); `step_cases` is the converse -/

theorem step_of_waitKey {s : State} {x : RegIdx} (hw : s.waitKey = some x) :
    step s = .next (pollKey x s).useInput := by
  rw [step, hw]

theorem step_of_decode_ok {s u : State} {i : Instr} (hw : s.waitKey = none) (hd : decode s.fetchWord = .ok i)
    (hu : exec i s.afterFetch = .next u) : step s = .next (finishTick u) := by
  simp only [step, hw, hd, hu]

theorem step_of_decode_error {s : State} {e : DecodeReject} (hw : s.waitKey = none)
    (hd : decode s.fetchWord = .error e) :
    step s = .next (finishTick (s.afterFetch.unknownInstruction s.fetchWord)) := by
  simp only [step, hw, hd]

/-! ### Every step has a successor (R274) -/

/-- Each of the 35 meanings gives a next state on every operand: none is a halt and none is a trap (R230). -/
theorem exists_exec_eq_next (i : Instr) (s : State) : ∃ t, exec i s = .next t := by
  cases i <;> exact ⟨_, rfl⟩

/-- Settles O10: a poll of a key wait, the tick of a decoded instruction and the tick of an unknown word each have a next
state, the second because every instruction has one. -/
theorem everyStepHasANextState : Obligations.EveryStepHasANextState := by
  intro s
  cases hw : s.waitKey with
  | some x => exact ⟨_, step_of_waitKey hw⟩
  | none =>
    cases hd : decode s.fetchWord with
    | ok i =>
      obtain ⟨u, hu⟩ := exists_exec_eq_next i s.afterFetch
      exact ⟨_, step_of_decode_ok hw hd hu⟩
    | error e => exact ⟨_, step_of_decode_error hw hd⟩

end Sys2Proof.Machine
end

section
/-! PROOFS. The family of 30_encoding.md: decoder and encoder agree, and the unknown words (R91 to R100, R107). -/

namespace Sys2Proof

/-! ### Decoding an encoded instruction (R107) -/

/-- SYS shares op 0 and its format with CLS and RET, and well-formedness keeps it off their two words (R95). -/
theorem decodeOp0_packNNN {nnn : Addr} (h : (Instr.sys nnn).wellFormed = true) :
    decodeOp0 (packNNN 0x0 nnn) = .sys nnn := by
  simp only [Instr.wellFormed, Bool.and_eq_true, bne_iff_ne] at h
  simp [decodeOp0, h]

/-- The primary key alone decides the first three groups, the keys `n` and `kk` of op 8, E and F the others. -/
theorem decode_encode {i : Instr} (h : i.wellFormed = true) : decode (encode i) = .ok i := by
  cases i with
  | sys nnn =>
    have hd : decode (packNNN 0x0 nnn) = .ok (decodeOp0 (packNNN 0x0 nnn)) := by simp [decode]
    exact hd.trans (congrArg _ (decodeOp0_packNNN h))
  | cls | ret => rfl
  | jp | call | ldI | jpV0 => simp [encode, decode]
  | seByte | sneByte | ldByte | addByte | rnd => simp [encode, decode]
  | seReg | sneReg | drw => simp [encode, decode]
  | ldReg | orReg | andReg | xorReg | addReg | subReg | shr | subnReg | shl => simp [encode, decode, decodeOp8]
  | skp | sknp => simp [encode, decode, decodeOpE]
  | ldVxDt | ldVxK | ldDtVx | ldStVx | addI | ldF | ldB | storeRegs | loadRegs => simp [encode, decode, decodeOpF]

/-- Settles O2: the word round trip, and a word is its two bytes. -/
theorem decodeEncodeRoundTrip : Obligations.DecodeEncodeRoundTrip := by
  intro i h
  have hd := decode_encode h
  exact ⟨hd, fun rest => by simp [encodeBytes, decodeBytes, hd]⟩

/-! ### Encoding a decoded word (R91, R96) -/

theorem packNNN_eq_of_fields {w : Word} {op : Nibble} (hop : opField w = op) : packNNN op (nnnField w) = w :=
  hop ▸ packNNN_fields w

theorem packXKK_eq_of_fields {w : Word} {op : Nibble} (hop : opField w = op) {kk : Byte} (hkk : kkField w = kk) :
    packXKK op (xField w) kk = w :=
  hop ▸ hkk ▸ packXKK_fields w

theorem packXYN_eq_of_fields {w : Word} {op : Nibble} (hop : opField w = op) {n : Nibble} (hn : nField w = n) :
    packXYN op (xField w) (yField w) n = w :=
  hop ▸ hn ▸ packXYN_fields w

/-- The mask of everything but the low nibble. -/
theorem packXYN_and_opxy (op : Nibble) (x y : RegIdx) (n : Nibble) :
    packXYN op x y n &&& 0xFFF0 = packXYN op x y 0 := by
  show HAnd.hAnd (op ++ (BitVec.ofFin x : Nibble) ++ (BitVec.ofFin y : Nibble) ++ n)
    ((0xF#4 : Nibble) ++ (0xF#4 : Nibble) ++ (0xF#4 : Nibble) ++ (0#4 : Nibble)) = _
  rw [BitVec.and_append, BitVec.and_append, BitVec.and_append]
  simp only [BitVec.and_zero, packXYN]
  congr 3 <;> exact BitVec.and_allOnes

/-- Op 5 and op 9 ignore the low nibble, and the encoder writes it 0 (R96). -/
theorem packXYN_zero_eq_of_fields {w : Word} {op : Nibble} (hop : opField w = op) :
    packXYN op (xField w) (yField w) 0x0 = w &&& 0xFFF0 := by
  rw [← packXYN_and_opxy op (xField w) (yField w) (nField w), packXYN_eq_of_fields hop rfl]

/-- The two words of op 0 with a name of their own are CLS and RET; every other is SYS, well formed (R95). -/
theorem encode_decodeOp0 {w : Word} (hop : opField w = 0x0) :
    (decodeOp0 w).wellFormed = true ∧ encode (decodeOp0 w) = w := by
  have hw := packNNN_eq_of_fields hop
  unfold decodeOp0
  split_ifs with hcls hret
  · exact ⟨rfl, by rw [← hw, hcls]; rfl⟩
  · exact ⟨rfl, by rw [← hw, hret]; rfl⟩
  · exact ⟨by simp [Instr.wellFormed, hcls, hret], hw⟩

theorem encode_of_decodeOp8 {w : Word} {i : Instr} (hop : opField w = 0x8) (h : decodeOp8 w = .ok i) :
    i.wellFormed = true ∧ encode i = w := by
  unfold decodeOp8 at h
  split at h
  case h_10 => cases h
  all_goals
    next hn =>
      cases h
      exact ⟨rfl, packXYN_eq_of_fields hop hn⟩

theorem encode_of_decodeOpE {w : Word} {i : Instr} (hop : opField w = 0xE) (h : decodeOpE w = .ok i) :
    i.wellFormed = true ∧ encode i = w := by
  unfold decodeOpE at h
  split at h
  case h_3 => cases h
  all_goals
    next hkk =>
      cases h
      exact ⟨rfl, packXKK_eq_of_fields hop hkk⟩

theorem encode_of_decodeOpF {w : Word} {i : Instr} (hop : opField w = 0xF) (h : decodeOpF w = .ok i) :
    i.wellFormed = true ∧ encode i = w := by
  unfold decodeOpF at h
  split at h
  case h_10 => cases h
  all_goals
    next hkk =>
      cases h
      exact ⟨rfl, packXKK_eq_of_fields hop hkk⟩

/-- Settles O3: by cases on the primary key, each word is the packing of its fields in the format of its key. -/
theorem encodeDecodeGivesTheWord : Obligations.EncodeDecodeGivesTheWord := by
  intro w i h
  unfold decode at h
  split at h
  case h_1 hop => cases h; simpa [hop] using encode_decodeOp0 hop
  case h_2 hop | h_3 hop | h_11 hop | h_12 hop =>
    cases h
    exact ⟨rfl, by simpa [hop, encode] using packNNN_eq_of_fields hop⟩
  case h_4 hop | h_5 hop | h_7 hop | h_8 hop | h_13 hop =>
    cases h
    exact ⟨rfl, by simpa [hop, encode] using packXKK_eq_of_fields hop rfl⟩
  case h_6 hop | h_10 hop =>
    cases h
    exact ⟨rfl, by simpa [hop, encode] using packXYN_zero_eq_of_fields hop⟩
  case h_9 hop => simpa [hop] using encode_of_decodeOp8 hop h
  case h_14 hop =>
    cases h
    exact ⟨rfl, by simpa [hop, encode] using packXYN_eq_of_fields hop rfl⟩
  case h_15 hop => simpa [hop] using encode_of_decodeOpE hop h
  case h_16 =>
    have hop : opField w = 0xF := by
      simp only [imp_false] at *
      bv_omega
    simpa [hop] using encode_of_decodeOpF hop h

/-! ### The unknown words (R99) -/

/-- The second key of op 8 is `n` (R97). -/
theorem decodeOp8_cases (w : Word) :
    (w.toNat % 0x10 ∈ [0x8, 0x9, 0xA, 0xB, 0xC, 0xD, 0xF] ∧ decodeOp8 w = .error (.unknownInstruction w)) ∨
    (w.toNat % 0x10 ∉ [0x8, 0x9, 0xA, 0xB, 0xC, 0xD, 0xF] ∧ ∃ i, decodeOp8 w = .ok i) := by
  rw [← nField_toNat]
  unfold decodeOp8
  split
  case h_10 =>
    refine .inl ⟨?_, rfl⟩
    simp only [imp_false, List.mem_cons, List.not_mem_nil, or_false] at *
    bv_omega
  all_goals
    next hn => simp [hn]

/-- The second key of op E is `kk` (R98). -/
theorem decodeOpE_cases (w : Word) :
    (w.toNat % 0x100 ∉ [0x9E, 0xA1] ∧ decodeOpE w = .error (.unknownInstruction w)) ∨
    (w.toNat % 0x100 ∈ [0x9E, 0xA1] ∧ ∃ i, decodeOpE w = .ok i) := by
  rw [← kkField_toNat]
  unfold decodeOpE
  split
  case h_3 =>
    refine .inl ⟨?_, rfl⟩
    simp only [imp_false, List.mem_cons, List.not_mem_nil, or_false] at *
    bv_omega
  all_goals
    next hn => simp [hn]

/-- The second key of op F is `kk` (R98). -/
theorem decodeOpF_cases (w : Word) :
    (w.toNat % 0x100 ∉ [0x07, 0x0A, 0x15, 0x18, 0x1E, 0x29, 0x33, 0x55, 0x65] ∧
      decodeOpF w = .error (.unknownInstruction w)) ∨
    (w.toNat % 0x100 ∈ [0x07, 0x0A, 0x15, 0x18, 0x1E, 0x29, 0x33, 0x55, 0x65] ∧ ∃ i, decodeOpF w = .ok i) := by
  rw [← kkField_toNat]
  unfold decodeOpF
  split
  case h_10 =>
    refine .inl ⟨?_, rfl⟩
    simp only [imp_false, List.mem_cons, List.not_mem_nil, or_false] at *
    bv_omega
  all_goals
    next hn => simp [hn]

/-- The four values of `op` that take a second key, and the others, whose words all decode. -/
theorem decode_cases (w : Word) :
    (opField w = 0x8 ∧ decode w = decodeOp8 w) ∨ (opField w = 0xE ∧ decode w = decodeOpE w) ∨
    (opField w = 0xF ∧ decode w = decodeOpF w) ∨
    (opField w ≠ 0x8 ∧ opField w ≠ 0xE ∧ opField w ≠ 0xF ∧ ∃ i, decode w = .ok i) := by
  unfold decode
  split
  case h_16 =>
    have hop : opField w = 0xF := by
      simp only [imp_false] at *
      bv_omega
    simp [hop]
  all_goals
    next hop => simp [hop]

/-- Settles O4: the second key of op 8, E or F decides, and any other op decodes. -/
theorem unknownWordsAreExactlyThese : Obligations.UnknownWordsAreExactlyThese := by
  intro w
  rw [← opField_toNat]
  obtain ⟨hop, hd⟩ | ⟨hop, hd⟩ | ⟨hop, hd⟩ | ⟨h8, hE, hF, hd⟩ := decode_cases w
  · rw [hd]
    obtain ⟨hkey, hd⟩ | ⟨hkey, hd⟩ := decodeOp8_cases w <;> simpa [hop, hkey, -List.mem_cons] using hd
  · rw [hd]
    obtain ⟨hkey, hd⟩ | ⟨hkey, hd⟩ := decodeOpE_cases w <;> simpa [hop, hkey, -List.mem_cons] using hd
  · rw [hd]
    obtain ⟨hkey, hd⟩ | ⟨hkey, hd⟩ := decodeOpF_cases w <;> simpa [hop, hkey, -List.mem_cons] using hd
  · rw [if_neg]
    · exact hd
    · bv_omega

/-! ### Words by their fields (R96, R107) -/

/-- Settles O5: the decoder reads only `op`, `x` and `y` of such a word. -/
theorem registerSkipsIgnoreTheLowNibble : Obligations.RegisterSkipsIgnoreTheLowNibble := by
  intro x y n
  constructor <;> simp [decode]

/-- Settles O1: the decoder computes on each listed word. -/
theorem decodeKnownWords : Obligations.DecodeKnownWords := ⟨rfl, rfl, rfl⟩

end Sys2Proof
end

section
/-! PROOFS. The whole-machine rules of 10_state.md: which parts of the state an instruction can change (R18), and what
every step keeps. -/

namespace Sys2Proof.Machine

/-! ### The footprint of an instruction (R18; D27) -/

/-- The parts of a state that execute of an instruction can change. -/
def footprint (i : Instr) (s : State) (p : Part) : Prop :=
  match i with
  | .sys _ => False
  | .cls => p = .dirty ∨ ∃ px py, p = .pixel px py
  | .ret => p ∈ [.pc, .sp]
  | .call _ => p ∈ [.pc, .sp, .stack (stackSlot (s.sp + 1))]
  | .jp _ | .jpV0 _ | .seByte _ _ | .sneByte _ _ | .seReg _ _ | .sneReg _ _ | .skp _ | .sknp _ => p ∈ [.pc]
  | .ldByte x _ | .addByte x _ | .ldReg x _ | .orReg x _ | .andReg x _ | .xorReg x _ | .rnd x _ | .ldVxDt x =>
    p ∈ [.reg x]
  | .addReg x _ | .subReg x _ | .shr x _ | .subnReg x _ | .shl x _ => p ∈ [.reg x, .reg VF]
  | .drw _ _ _ => p = .reg VF ∨ p = .dirty ∨ p = .events ∨ ∃ px py, p = .pixel px py
  | .ldI _ | .addI _ | .ldF _ => p ∈ [.i]
  | .ldVxK x => p ∈ [.reg x, .waitKey]
  | .ldDtVx _ => p ∈ [.dt]
  | .ldStVx _ => p ∈ [.st]
  | .ldB _ => p = .events ∨ ∃ k < 3, effAddr s.i k ≤ memTop ∧ p = .byte (effAddr s.i k)
  | .storeRegs x => p = .events ∨ ∃ k ≤ x.val, effAddr s.i k ≤ memTop ∧ p = .byte (effAddr s.i k)
  | .loadRegs x => p = .events ∨ ∃ k : RegIdx, k ≤ x ∧ p = .reg k

theorem frame_cls (s : State) :
    FrameExcept (fun p => p = .dirty ∨ ∃ px py, p = .pixel px py) s
      { s with fb := Framebuffer.clear, dirty := true } := by
  intro p hp
  cases p with
  | dirty => exact absurd (.inl rfl) hp
  | pixel px py => exact absurd (.inr ⟨px, py, rfl⟩) hp
  | _ => rfl

theorem frame_exec_drw {x y : RegIdx} {n : Nibble} {s t : State} (h : exec (.drw x y n) s = .next t) :
    FrameExcept (fun p => p = .reg VF ∨ p = .dirty ∨ p = .events ∨ ∃ px py, p = .pixel px py) s t := by
  cases h
  rw [readBytes_eq]
  intro p hp
  cases p with
  | reg k => exact reg_setReg_ne _ (fun h => hp (.inl (by rw [h]))) _
  | dirty => exact absurd (.inr (.inl rfl)) hp
  | events => exact absurd (.inr (.inr (.inl rfl))) hp
  | pixel px py => exact absurd (.inr (.inr (.inr ⟨px, py, rfl⟩))) hp
  | _ => rfl

theorem frame_exec_ldVxK {x : RegIdx} {s t : State} (h : exec (.ldVxK x) s = .next t) :
    FrameBut [.reg x, .waitKey] s t := by
  cases h
  split
  · exact (frame_setReg s x _).mono fun p hp => List.mem_cons.mpr (.inl (List.mem_singleton.mp hp))
  · exact (frame_waitKey s _).mono fun p hp => List.mem_cons_of_mem _ hp

theorem frame_readBytes (base : Word) (k n : Nat) (s : State) : FrameBut [.events] s (readBytes base k n s).2 := by
  rw [readBytes_eq]
  exact frame_events s _

theorem length_readBytes (base : Word) (k n : Nat) (s : State) : (readBytes base k n s).1.length = n := by
  simp [readBytes_eq, addrsFrom]

theorem frame_exec_loadRegs {x : RegIdx} {s t : State} (h : exec (.loadRegs x) s = .next t) :
    FrameExcept (fun p => p = .events ∨ ∃ k : RegIdx, k ≤ x ∧ p = .reg k) s t := by
  cases h
  have hlen := length_readBytes s.i 0 (x.val + 1) s
  refine .trans ((frame_readBytes s.i 0 (x.val + 1) s).mono fun p hp => .inl (List.mem_singleton.mp hp))
    ((frame_writeRegs 0 _ _ (by omega)).mono ?_)
  rintro p ⟨k, -, hk, rfl⟩
  exact .inr ⟨k, Fin.le_def.mpr (by omega), rfl⟩

/-- Execute changes nothing outside the footprint of its instruction. -/
theorem frame_exec {i : Instr} {s t : State} (h : exec i s = .next t) : FrameExcept (footprint i s) s t := by
  cases i with
  | sys => cases h; exact FrameExcept.rfl' _ s
  | cls => cases h; exact frame_cls s
  | ret => cases h; exact frame_popCall s _
  | call => cases h; exact frame_pushCall s _ _
  | jp | jpV0 | seByte | sneByte | seReg | sneReg | skp | sknp => cases h; exact frame_pc s _
  | ldByte | addByte | ldReg | orReg | andReg | xorReg | rnd | ldVxDt => cases h; exact frame_setReg s _ _
  | addReg | subReg | shr | subnReg | shl => cases h; exact frame_writeFlagThenResult s _ _ _
  | drw => exact frame_exec_drw h
  | ldI | addI | ldF => cases h; exact frame_i s _
  | ldVxK => exact frame_exec_ldVxK h
  | ldDtVx => cases h; exact frame_dt s _
  | ldStVx => cases h; exact frame_st s _
  | ldB x => cases h; exact frame_writeBytes s.i (bcdDigits (s.reg x)) s
  | storeRegs x =>
    cases h
    refine (frame_writeBytes s.i _ s).mono fun p hp => ?_
    simpa only [footprint, regsUpTo_length, Nat.lt_succ_iff] using hp
  | loadRegs => exact frame_exec_loadRegs h

/-- A part that execute has changed is in the footprint. -/
theorem footprint_of_not_same {i : Instr} {s t : State} (h : exec i s = .next t) {p : Part} (hp : ¬ p.same s t) :
    footprint i s p :=
  not_imp_comm.mp (frame_exec h p) hp

/-! ### Which instructions have a part in their footprint -/

variable {i : Instr} {s : State}

theorem footprint_i (h : footprint i s .i) : (∃ nnn, i = .ldI nnn) ∨ (∃ x, i = .addI x) ∨ ∃ x, i = .ldF x := by
  cases i <;> simp_all [footprint]

theorem footprint_dt (h : footprint i s .dt) : ∃ x, i = .ldDtVx x := by
  cases i <;> simp_all [footprint]

theorem footprint_st (h : footprint i s .st) : ∃ x, i = .ldStVx x := by
  cases i <;> simp_all [footprint]

theorem footprint_waitKey (h : footprint i s .waitKey) : ∃ x, i = .ldVxK x := by
  cases i <;> simp_all [footprint]

theorem footprint_byte {a : Nat} (h : footprint i s (.byte a)) : (∃ x, i = .ldB x) ∨ ∃ x, i = .storeRegs x := by
  cases i <;> simp_all [footprint]

theorem footprint_stack {j : Fin 16} (h : footprint i s (.stack j)) : ∃ nnn, i = .call nnn := by
  cases i <;> simp_all [footprint]

theorem footprint_pixel {px : Fin 64} {py : Fin 32} (h : footprint i s (.pixel px py)) :
    i = .cls ∨ ∃ x y n, i = .drw x y n := by
  cases i <;> simp_all [footprint]

theorem footprint_dirty (h : footprint i s .dirty) : i = .cls ∨ ∃ x y n, i = .drw x y n := by
  cases i <;> simp_all [footprint]

theorem not_footprint_tickCount : ¬ footprint i s .tickCount := by
  cases i <;> simp [footprint]

theorem not_footprint_config : ¬ footprint i s .config := by
  cases i <;> simp [footprint]

theorem not_footprint_inputs : ¬ footprint i s .inputs := by
  cases i <;> simp [footprint]

theorem not_footprint_draws : ¬ footprint i s .draws := by
  cases i <;> simp [footprint]

/-! ### What execute alone can change (R21, R27, R33, R34, R37 to R40, R61) -/

variable {t : State}

@[simp] theorem readBytes_withTickCount (base : Word) (k n c : Nat) (s : State) :
    readBytes base k n { s with tickCount := c } =
      ((readBytes base k n s).1, { (readBytes base k n s).2 with tickCount := c }) := by
  simp only [readBytes_eq]
  rfl

/-- No meaning reads `tick_count` (R39). -/
theorem exec_withTickCount (h : exec i s = .next t) (c : Nat) :
    exec i { s with tickCount := c } = .next { t with tickCount := c } := by
  cases i with
  | drw | loadRegs =>
    cases h
    simp [exec, execDrw, execLoadRegs, writeRegs_eq, State.setReg, State.reg]
  | ldB | storeRegs =>
    cases h
    simp only [exec, execLdB, execStoreRegs, writeBytes_eq]
    rfl
  | ldVxK x =>
    cases h
    by_cases hk : s.input.anyKey = true
    · rw [if_pos hk]
      exact congrArg Host.Outcome.next (if_pos hk)
    · rw [if_neg hk]
      exact congrArg Host.Outcome.next (if_neg hk)
  | _ => cases h; rfl

/-- Settles O16: each register's part is in the footprint of its own instructions only, and `tick_count` in none. -/
theorem onlyTheirInstructionsChangeSpecialRegisters : Obligations.OnlyTheirInstructionsChangeSpecialRegisters := by
  intro i s t h
  exact ⟨fun hne => footprint_i (footprint_of_not_same h hne), fun hne => footprint_dt (footprint_of_not_same h hne),
    fun hne => footprint_st (footprint_of_not_same h hne), fun hne => footprint_waitKey (footprint_of_not_same h hne),
    frame_exec h .tickCount not_footprint_tickCount, exec_withTickCount h⟩

/-- A changed framebuffer has a changed pixel. -/
theorem exists_pixel_not_same (h : t.fb ≠ s.fb) : ∃ px py, ¬ (Part.pixel px py).same s t := by
  by_contra hall
  push Not at hall
  exact h (Framebuffer.ext_pixel hall)

/-- DRW and CLS only ever set `dirty` (R38, R195). -/
theorem dirty_of_exec (h : exec i s = .next t) (hd : s.dirty = true) : t.dirty = true := by
  by_cases hi : footprint i s .dirty
  · obtain rfl | ⟨x, y, n, rfl⟩ := footprint_dirty hi
    · cases h; rfl
    · cases h; simp [hd]
  · exact Eq.trans (frame_exec h .dirty hi) hd

/-- Settles O17: by the footprints of `dirty` and of the pixels. -/
theorem onlyClsAndDrwChangeTheDisplay : Obligations.OnlyClsAndDrwChangeTheDisplay := by
  intro i s t h
  refine ⟨?_, dirty_of_exec h⟩
  rintro (hfb | hdirty)
  · obtain ⟨px, py, hne⟩ := exists_pixel_not_same hfb
    exact footprint_pixel (footprint_of_not_same h hne)
  · exact footprint_dirty (footprint_of_not_same h hdirty)

/-- Settles O18: by the footprints of the bytes and of the call-stack entries. -/
theorem onlyStoresChangeMemory : Obligations.OnlyStoresChangeMemory := by
  intro i s t h
  exact ⟨fun ⟨_, hne⟩ => footprint_byte (footprint_of_not_same h hne),
    fun ⟨_, hne⟩ => footprint_stack (footprint_of_not_same h hne)⟩

/-- Settles O19: by the footprints of the registers, which are the listed destinations. -/
theorem onlyDestinationsAndFlagWritersChangeRegisters :
    Obligations.OnlyDestinationsAndFlagWritersChangeRegisters := by
  intro i s t k h hne
  have hk := footprint_of_not_same (p := .reg k) h hne
  revert hk
  cases i <;> simp [footprint]

/-! ### Every step keeps the parameters and uses one snapshot (R42, R46) -/

theorem exec_config (h : exec i s = .next t) : t.config = s.config := frame_exec h .config not_footprint_config
theorem exec_inputs (h : exec i s = .next t) : t.inputs = s.inputs := frame_exec h .inputs not_footprint_inputs
theorem exec_draws (h : exec i s = .next t) : t.draws = s.draws := frame_exec h .draws not_footprint_draws
theorem exec_tickCount (h : exec i s = .next t) : t.tickCount = s.tickCount :=
  frame_exec h .tickCount not_footprint_tickCount

/-- After execute the tick completes, unless a key wait has begun (R101). -/
theorem finishTick_eq (s : State) : finishTick s = if s.waitKey = none then (endTick s).useInput else s.useInput := by
  unfold finishTick
  split
  next hw => rw [if_pos hw]
  next hw => rw [if_neg (by simp [hw])]

@[simp] theorem afterFetch_config (s : State) : s.afterFetch.config = s.config := by rw [afterFetch_eq]
@[simp] theorem afterFetch_inputs (s : State) : s.afterFetch.inputs = s.inputs := by rw [afterFetch_eq]
@[simp] theorem afterFetch_draws (s : State) : s.afterFetch.draws = s.draws := by rw [afterFetch_eq]
@[simp] theorem afterFetch_tickCount (s : State) : s.afterFetch.tickCount = s.tickCount := by rw [afterFetch_eq]
@[simp] theorem afterFetch_mem (s : State) : s.afterFetch.mem = s.mem := by rw [afterFetch_eq]

/-- The end of a tick, if there is one, leaves the parameters alone, and the step's snapshot is used up. -/
theorem finishTick_config_inputs_draws (s : State) :
    (finishTick s).config = s.config ∧ (finishTick s).inputs = s.inputs.tail ∧ (finishTick s).draws = s.draws + 1 := by
  rw [finishTick_eq]
  split <;> simp

theorem pollKey_config_inputs_draws (x : RegIdx) (s : State) :
    (pollKey x s).config = s.config ∧ (pollKey x s).inputs = s.inputs ∧ (pollKey x s).draws = s.draws := by
  unfold pollKey
  split <;> simp

/-- Settles O14: execute has none of the three in a footprint, and the last part of every step uses the snapshot. -/
theorem stepKeepsParametersAndUsesOneSnapshot : Obligations.StepKeepsParametersAndUsesOneSnapshot := by
  intro s t h
  obtain ⟨x, -, rfl⟩ | ⟨i, u, -, -, hu, rfl⟩ | ⟨e, -, -, rfl⟩ := step_cases h
  · simp [pollKey_config_inputs_draws]
  · simp [finishTick_config_inputs_draws, exec_config hu, exec_inputs hu, exec_draws hu]
  · simp [finishTick_config_inputs_draws]

/-! ### The invariant (R9, R39, R60) -/

/-- Only the stores write memory, and every write keeps the canonical form. -/
theorem exec_wf (h : exec i s = .next t) (hm : s.mem.wf) : t.mem.wf := by
  cases i with
  | ldB | storeRegs => cases h; exact writeBytes_wf s.i 0 _ hm
  | drw => cases h; rw [readBytes_eq]; exact hm
  | loadRegs => cases h; rw [readBytes_eq, writeRegs_eq]; exact hm
  | ldVxK => cases h; split <;> exact hm
  | _ => cases h; exact hm

theorem State.Inv.wf (hs : s.Inv) : s.mem.wf := hs.1

/-- The invariant speaks of memory, the parameters and `tick_count` only. -/
theorem State.Inv.of_eq (hs : s.Inv) (hm : t.mem.wf) (hc : t.config = s.config) (ht : t.tickCount = s.tickCount) :
    t.Inv := by
  obtain ⟨-, hfreq, htick⟩ := hs
  exact ⟨hm, hc ▸ hfreq, by rwa [ht, hc]⟩

theorem State.Inv.afterFetch (hs : s.Inv) : s.afterFetch.Inv :=
  hs.of_eq (by rw [afterFetch_mem]; exact hs.wf) (afterFetch_config s) (afterFetch_tickCount s)

theorem State.Inv.exec (hs : s.Inv) (h : exec i s = .next t) : t.Inv :=
  hs.of_eq (exec_wf h hs.wf) (exec_config h) (exec_tickCount h)

theorem State.Inv.endTick (hs : s.Inv) : (endTick s).Inv := by
  obtain ⟨hm, hfreq, htick⟩ := hs
  exact ⟨hm, hfreq, endTick_tickCount_lt htick⟩

theorem State.Inv.finishTick (hs : s.Inv) : (finishTick s).Inv := by
  rw [finishTick_eq]
  split
  · exact hs.endTick
  · exact hs

theorem State.Inv.pollKey (hs : s.Inv) (x : RegIdx) : (pollKey x s).Inv := by
  unfold Machine.pollKey
  split
  · exact State.Inv.endTick (s := s.storeKey x) hs
  · exact hs

/-- Settles O13: each part of a step keeps the invariant. -/
theorem everyStepKeepsTheInvariant : Obligations.EveryStepKeepsTheInvariant := by
  intro s t hs h
  obtain ⟨x, -, rfl⟩ | ⟨i, u, -, -, hu, rfl⟩ | ⟨e, -, -, rfl⟩ := step_cases h
  · exact hs.pollKey x
  · exact (hs.afterFetch.exec hu).finishTick
  · exact State.Inv.finishTick (s := s.afterFetch.unknownInstruction s.fetchWord) hs.afterFetch

/-- Settles O12: whatever the open frequency is, it is positive, so the period is. -/
theorem resetMeetsTheInvariant : Obligations.ResetMeetsTheInvariant := by
  refine ⟨Memory.wf_nil, Nat.succ_pos _, ?_⟩
  show 0 < (Config.openFreqLessOne + 1 + 59) / 60
  omega

end Sys2Proof.Machine
end

section
/-! PROOFS. The instruction cycle of 30_encoding.md section 3: fetch, execute, the end of the tick, and the order of the
events (R101 to R103, R232, R234). -/

namespace Sys2Proof.Machine

/-! ### The two addresses of a fetch (R68, R101) -/

@[simp] theorem effAddr_zero (base : Word) : effAddr base 0 = base.toNat := Nat.mod_eq_of_lt base.isLt

theorem addrsFrom_two (base : Word) : addrsFrom base 0 2 = [effAddr base 0, effAddr base 1] := rfl

/-- Settles O6: the word is its two bytes, and the state after the fetch is written out. -/
theorem fetchIsBigEndianAndAdvancesPc : Obligations.FetchIsBigEndianAndAdvancesPc := by
  intro s
  refine ⟨?_, ?_, ?_, frame_afterFetch s⟩
  · rw [State.fetchWord, wordOfBytes_toNat, effAddr_zero, effAddr]
  · rw [afterFetch_eq]
    exact BitVec.toNat_add s.pc 2
  · rw [afterFetch_eq, addrsFrom_two, effAddr_zero, effAddr]

/-- Settles O7: a step on a decoded instruction ends as `finishTick` does. -/
theorem stepRunsTheDecodedInstruction : Obligations.StepRunsTheDecodedInstruction := by
  intro s t i hw hd ht
  rw [step_of_decode_ok hw hd ht, finishTick_eq]

@[simp] theorem afterFetch_waitKey (s : State) : s.afterFetch.waitKey = s.waitKey := by rw [afterFetch_eq]

@[simp] theorem afterFetch_pc (s : State) : s.afterFetch.pc = s.pc + 2 := by rw [afterFetch_eq]

/-- Settles O8: the state before the end of the tick is the one after the fetch with the event appended. -/
theorem unknownInstructionOnlyRaisesItsEvent : Obligations.UnknownInstructionOnlyRaisesItsEvent := by
  intro s hw hd
  refine ⟨s.afterFetch.unknownInstruction s.fetchWord, ?_, afterFetch_pc s, rfl, frame_events s.afterFetch _⟩
  rw [step_of_decode_error hw hd, finishTick_eq, if_pos]
  simpa using hw

/-! ### A placed word (log entry 26) -/

theorem tableWord_toNat (w : Word) : tableWord 16 w.toNat = w := by
  apply BitVec.eq_of_toNat_eq
  have hw : w.toNat % 2 ^ 16 = w.toNat := Nat.mod_eq_of_lt w.isLt
  rw [tableWord, BitVec.toNat_ofNat, hw, hw]

/-- Where `withFetchWord` places a word: at PC, or at the program origin where PC leaves no room for two bytes. -/
def State.placement (s : State) : Nat := if s.pc.toNat + 1 ≤ memTop then s.pc.toNat else progOrigin

theorem placement_succ_le (s : State) : s.placement + 1 ≤ memTop := by
  unfold State.placement
  split
  · assumption
  · decide

theorem withFetchWord_eq (s : State) (w : Word) :
    s.withFetchWord 16 w.toNat =
      { s with
        pc := BitVec.ofNat 16 s.placement
        waitKey := none
        mem := (s.mem.write s.placement (highByte w)).write (s.placement + 1) (lowByte w) } := by
  rw [State.withFetchWord, tableWord_toNat]
  rfl

/-- Two bytes in memory at PC are what the next step fetches (R101). -/
theorem fetchWord_of_read {s : State} {a : Nat} (hpc : s.pc.toNat = a) (ha : a + 1 ≤ memTop) :
    s.fetchWord = wordOfBytes (s.mem.read a) (s.mem.read (a + 1)) := by
  have h0 : effAddr s.pc 0 = a := by rw [effAddr_zero, hpc]
  have h1 : effAddr s.pc 1 = a + 1 := by
    rw [effAddr, hpc]
    exact Nat.mod_eq_of_lt (lt_of_le_of_lt ha (by decide))
  rw [State.fetchWord, h0, h1, State.byteAt, State.byteAt, if_pos (by omega), if_pos ha]

/-- Settles O9: both bytes lie in memory, and a read gives the byte written. -/
theorem placedWordIsFetched : Obligations.PlacedWordIsFetched := by
  intro s w hm
  have hle := placement_succ_le s
  have hm1 : (s.mem.write s.placement (highByte w)).wf := Memory.write_wf hm (by omega) _
  rw [withFetchWord_eq]
  refine ⟨?_, rfl, Memory.write_wf hm1 hle _⟩
  rw [fetchWord_of_read (a := s.placement)]
  · simp [Memory.read_write hm1, Memory.read_write hm]
  · exact Nat.mod_eq_of_lt (lt_of_le_of_lt (Nat.le_of_succ_le hle) (by decide))
  · exact hle

/-! ### The events of a tick (R234) -/

/-- Execute appends nothing but accesses out of range. -/
theorem events_of_exec {i : Instr} {s t : State} (h : exec i s = .next t) :
    ∃ dir as, t.events = s.events ++ outOfRangeEvents dir as := by
  cases i with
  | drw x y n =>
    cases h
    exact ⟨.read, addrsFrom s.i 0 n.toNat, by rw [readBytes_eq]; rfl⟩
  | loadRegs x =>
    cases h
    exact ⟨.read, addrsFrom s.i 0 (x.val + 1), by rw [readBytes_eq, writeRegs_eq]⟩
  | ldB x =>
    cases h
    exact ⟨.write, addrsFrom s.i 0 3, by rw [writeBytes_eq]; rfl⟩
  | storeRegs x =>
    cases h
    exact ⟨.write, addrsFrom s.i 0 (regsUpTo x s).length, by rw [writeBytes_eq]⟩
  | _ => exact ⟨.read, [], Eq.trans (frame_exec h .events (by simp [footprint])) (List.append_nil _).symm⟩

theorem redrawEvents_cases (s : State) : redrawEvents s = [] ∨ redrawEvents s = [.redraw s.fb] := by
  unfold redrawEvents
  split <;> simp

theorem toneEvents_cases (st : Byte) :
    toneEvents st = [] ∨ toneEvents st = [.toneStart] ∨ toneEvents st = [.toneStart, .toneStop] := by
  unfold toneEvents
  split_ifs <;> simp

/-- The end of a tick appends at most one Redraw and then the tone signals, only in a 60 Hz event (R241, R242). -/
theorem events_of_finishTick (s : State) :
    ∃ redraw tone : List Event,
      (finishTick s).events = s.events ++ redraw ++ tone ∧ (redraw = [] ∨ redraw = [.redraw (finishTick s).fb]) ∧
      (tone = [] ∨ tone = [.toneStart] ∨ tone = [.toneStart, .toneStop]) ∧ (redraw ++ tone ≠ [] → tickFires s) := by
  by_cases hfire : s.waitKey = none ∧ tickFires s
  · obtain ⟨hw, hf⟩ := hfire
    rw [finishTick_eq, if_pos hw, endTick_of_fires s hf]
    exact ⟨redrawEvents s, toneEvents s.st, rfl, redrawEvents_cases s, toneEvents_cases s.st, fun _ => hf⟩
  · refine ⟨[], [], ?_, .inl rfl, .inl rfl, fun h => absurd rfl h⟩
    rw [finishTick_eq]
    split
    next hw =>
      rw [endTick_of_not_fires s fun hf => hfire ⟨hw, hf⟩]
      simp
    next => simp

/-- A tick before its end: execute has appended its events to the fetch's, and has left the divider alone. -/
theorem executed_of_tick {s t : State} (hw : s.waitKey = none) (h : step s = .next t) :
    ∃ u ex, t = finishTick u ∧ u.events = s.afterFetch.events ++ ex ∧
      ((∃ dir as, ex = outOfRangeEvents dir as) ∨ ex = [.unknownInstruction s.fetchWord]) ∧
      u.tickCount = s.tickCount ∧ u.config = s.config := by
  obtain ⟨x, hx, -⟩ | ⟨i, u, -, -, hu, rfl⟩ | ⟨e, -, -, rfl⟩ := step_cases h
  · simp [hw] at hx
  · obtain ⟨dir, as, hevents⟩ := events_of_exec hu
    exact ⟨u, _, rfl, hevents, .inl ⟨dir, as, rfl⟩, by simp [exec_tickCount hu], by simp [exec_config hu]⟩
  · exact ⟨_, _, rfl, unknownInstruction_events _ _, .inr rfl, by simp, by simp⟩

/-- Settles O11: fetch, execute and the end of the tick each append their own part, in this order. -/
theorem eventsOfATickAreInOrder : Obligations.EventsOfATickAreInOrder := by
  intro s t hw h
  obtain ⟨u, ex, rfl, hevents, hex, htick, hconfig⟩ := executed_of_tick hw h
  obtain ⟨redraw, tone, hend, hredraw, htone, hfires⟩ := events_of_finishTick u
  refine ⟨ex, redraw, tone, ?_, hex, hredraw, htone, fun hne => ?_⟩
  · rw [hend, hevents, afterFetch_eq, addrsFrom_two]
  · rw [← htick, ← hconfig]
    exact hfires hne

end Sys2Proof.Machine
end

section
/-! PROOFS. Memory and reset: the memory primitives (20_memory.md R66, R67), the host's loads and the state after reset
(70_reset_and_hazards.md R271, R273), and a store seen by the next fetch (R278). -/

namespace Sys2Proof.Machine

/-! ### The memory primitives (R66, R67) -/

theorem memRead_of_le {a : Nat} (h : a ≤ memTop) (s : State) : memRead a s = (s.mem.read a, s) := by
  rw [memRead, State.byteAt, if_pos h, if_pos h]

theorem memRead_of_lt {a : Nat} (h : memTop < a) (s : State) : memRead a s = (0, s.emit (.outOfRange a .read)) := by
  rw [memRead, State.byteAt, if_neg h.not_ge, if_neg h.not_ge]

theorem memWrite_of_le {a : Nat} (h : a ≤ memTop) (b : Byte) (s : State) :
    memWrite a b s = { s with mem := s.mem.write a b } := if_pos h

theorem memWrite_of_lt {a : Nat} (h : memTop < a) (b : Byte) (s : State) :
    memWrite a b s = s.emit (.outOfRange a .write) := if_neg h.not_ge

theorem frame_memWrite_of_le {a : Nat} (h : a ≤ memTop) (b : Byte) (s : State) :
    FrameBut [.byte a] s (memWrite a b s) := by
  rw [memWrite_of_le h]
  intro p hp
  cases p with
  | byte c => exact Memory.read_write_ne _ _ fun hc => hp (by simp [hc])
  | _ => rfl

/-- Settles O23: by the two cases of the bounds check. -/
theorem memoryPrimitivesCheckBounds : Obligations.MemoryPrimitivesCheckBounds := by
  intro s a b hm
  split
  next ha =>
    refine ⟨memRead_of_le ha s, fun c => ?_, frame_memWrite_of_le ha b s⟩
    rw [memWrite_of_le ha]
    exact Memory.read_write hm a c b
  next ha =>
    rw [memRead_of_lt (not_le.mp ha), memWrite_of_lt (not_le.mp ha)]
    exact ⟨rfl, rfl, frame_events s _, rfl, frame_events s _⟩

/-- Settles O24: the store puts V0 and V1 where the next fetch reads. -/
theorem storeIsSeenByTheNextFetch : Obligations.StoreIsSeenByTheNextFetch := by
  intro s t hm hi hpc h
  cases h
  have haddr : ∀ k < 2, effAddr s.i k ≤ memTop := fun k hk => by
    rw [hi, effAddr_eq_add (by omega), memTop]
    omega
  have hbyte : ∀ k (hk : k < (regsUpTo 1 s).length),
      (writeBytes s.i 0 (regsUpTo 1 s) s).byteAt (effAddr s.i k) = (regsUpTo 1 s)[k] := fun k hk =>
    byteAt_writeBytes s.i _ hm (by simp [regsUpTo_length]) hk (haddr k (by simpa [regsUpTo_length] using hk))
  have hpc : (writeBytes s.i 0 (regsUpTo 1 s) s).pc = s.i := by rw [writeBytes_eq]; exact hi.symm
  rw [State.fetchWord, hpc, hbyte 0 (by simp [regsUpTo_length]), hbyte 1 (by simp [regsUpTo_length]),
    regsUpTo_getElem, regsUpTo_getElem]
  rfl

/-! ### The host's loads (R273) -/

/-- The addresses of a load from `a` on, not wrapped (D23). -/
theorem range_map_add_succ (a n : Nat) :
    (List.range (n + 1)).map (a + ·) = a :: (List.range n).map (a + 1 + ·) := by
  simp [List.range_succ_eq_map, Function.comp_def, Nat.add_assoc, Nat.add_comm 1]

theorem hostLoadFrom_eq (a : Nat) (bs : List Byte) (s : State) :
    hostLoadFrom a bs s =
      { s with
        mem := (hostLoadFrom a bs s).mem
        events := s.events ++ outOfRangeEvents .write ((List.range bs.length).map (a + ·)) } := by
  induction bs generalizing a s with
  | nil => simp [hostLoadFrom]
  | cons b bs ih =>
    rw [List.length_cons, range_map_add_succ, outOfRangeEvents_cons, hostLoadFrom, ih, hostLoad, memWrite_eq]
    simp [outOfRangeEvents_cons]

theorem read_hostLoad_ne {a c : Nat} (h : c ≠ a ∨ memTop < c) (b : Byte) (s : State) :
    (hostLoad a b s).mem.read c = s.mem.read c := by
  rw [hostLoad, memWrite_eq]
  dsimp only
  split
  next ha => exact Memory.read_write_ne _ _ (by omega)
  next => rfl

/-- A load leaves every address alone that it does not name or that is above 0xFFF. -/
theorem read_hostLoadFrom_outside {a c : Nat} {bs : List Byte} (h : (∀ k < bs.length, c ≠ a + k) ∨ memTop < c)
    (s : State) : (hostLoadFrom a bs s).mem.read c = s.mem.read c := by
  induction bs generalizing a s with
  | nil => rfl
  | cons b bs ih =>
    have hrest : (∀ k < bs.length, c ≠ a + 1 + k) ∨ memTop < c :=
      h.imp_left fun h k hk => by
        have := h (k + 1) (by simpa using hk)
        omega
    have hhead : c ≠ a ∨ memTop < c := h.imp_left fun h => h 0 (by simp)
    rw [hostLoadFrom, ih hrest, read_hostLoad_ne hhead]

/-- A load writes its `k`-th byte at its `k`-th address, if that lies in memory. -/
theorem read_hostLoadFrom {a k : Nat} {bs : List Byte} {s : State} (hm : s.mem.wf) (hk : k < bs.length)
    (ha : a + k ≤ memTop) : (hostLoadFrom a bs s).mem.read (a + k) = bs[k] := by
  induction bs generalizing a k s with
  | nil => simp at hk
  | cons b bs ih =>
    rw [hostLoadFrom]
    cases k with
    | zero =>
      rw [read_hostLoadFrom_outside (.inl fun k _ => by omega), hostLoad, memWrite_of_le (by omega)]
      exact Memory.read_write_self hm a b
    | succ k =>
      rw [show a + (k + 1) = a + 1 + k by omega]
      exact ih (memWrite_wf a b hm) (by simpa using hk) (by omega)

theorem byteAt_hostLoadFrom {a k : Nat} {bs : List Byte} {s : State} (hm : s.mem.wf) (hk : k < bs.length)
    (ha : a + k ≤ memTop) : (hostLoadFrom a bs s).byteAt (a + k) = bs[k] := by
  rw [State.byteAt, if_pos ha, read_hostLoadFrom hm hk ha]

theorem frame_hostLoadFrom (a : Nat) (bs : List Byte) (s : State) :
    FrameExcept (fun p => p = .events ∨ ∃ k < bs.length, a + k ≤ memTop ∧ p = .byte (a + k)) s
      (hostLoadFrom a bs s) := by
  intro p hp
  cases p with
  | events => exact absurd (.inl rfl) hp
  | byte c =>
    refine read_hostLoadFrom_outside ?_ s
    by_contra hc
    push Not at hc
    obtain ⟨⟨k, hk, rfl⟩, htop⟩ := hc
    exact hp (.inr ⟨k, hk, htop, rfl⟩)
  | _ => rw [hostLoadFrom_eq]; rfl

/-- Settles O22: the ROM load is the host's load from the program origin. -/
theorem romLoadWritesFromTheOrigin : Obligations.RomLoadWritesFromTheOrigin := by
  intro s rom hm
  refine ⟨fun k hk ha => byteAt_hostLoadFrom hm hk ha, ?_, frame_hostLoadFrom progOrigin rom s⟩
  rw [loadRom, hostLoadFrom_eq]
  rfl

/-! ### Reset (R271) -/

theorem outOfRangeEvents_eq_nil {dir : Dir} {as : List Nat} (h : ∀ a ∈ as, a ≤ memTop) :
    outOfRangeEvents dir as = [] := by
  simpa [outOfRangeEvents] using h

/-- A construction writes memory only: the font is 80 bytes long, so no byte of it is out of range. -/
theorem construct_eq (c : Config) (font : Vector Byte 80) :
    State.construct c font = { State.reset with config := c, mem := (State.construct c font).mem } := by
  rw [State.construct, hostLoadFrom_eq, outOfRangeEvents_eq_nil]
  · rfl
  · simp only [Vector.length_toList, List.mem_map, List.mem_range, fontBase, memTop]
    omega

/-- Loading into memory at reset the bytes it has there lists nothing. -/
theorem hostLoadFrom_unlisted {a : Nat} {bs : List Byte} {s : State} (hm : s.mem = [])
    (ha : a + bs.length ≤ memTop + 1) (hbs : ∀ k (hk : k < bs.length), bs[k] = Memory.unlisted (a + k)) :
    hostLoadFrom a bs s = s := by
  induction bs generalizing a with
  | nil => rfl
  | cons b bs ih =>
    rw [List.length_cons] at ha
    have hb : b = Memory.unlisted a := hbs 0 (by simp)
    have hfirst : hostLoad a b s = s := by
      rw [hostLoad, memWrite_of_le (by omega), hm, Memory.write, Memory.putFront, if_pos hb, ← hm]
    rw [hostLoadFrom, hfirst]
    refine ih (by omega) fun k hk => ?_
    have := hbs (k + 1) (by simpa using hk)
    rwa [List.getElem_cons_succ, ← Nat.add_assoc, Nat.add_right_comm] at this

theorem byteAt_construct_font (c : Config) (font : Vector Byte 80) {k : Nat} (hk : k < 80) :
    (State.construct c font).byteAt k = font[k] := by
  have h := byteAt_hostLoadFrom (a := fontBase) (k := k) (bs := font.toList) (s := { State.reset with config := c })
    Memory.wf_nil (by simpa using hk) (by rw [fontBase, memTop]; omega)
  simpa [State.construct, fontBase] using h

theorem byteAt_construct_after (c : Config) (font : Vector Byte 80) {a : Nat} (ha : 80 ≤ a) :
    (State.construct c font).byteAt a = 0 := by
  have hout : ∀ k < font.toList.length, a ≠ fontBase + k := fun k hk => by
    rw [Vector.length_toList] at hk
    rw [fontBase]
    omega
  have hread : (State.construct c font).mem.read a = 0 :=
    (read_hostLoadFrom_outside (.inl hout) _).trans (Memory.unlisted_of_ge ha)
  rw [State.byteAt, hread, ite_self]

/-- Settles O21: the host's load of the font, and no load changes memory where it already holds the bytes loaded. -/
theorem constructionLoadsTheFont : Obligations.ConstructionLoadsTheFont := by
  refine ⟨fun c font => ⟨fun k hk => byteAt_construct_font c font hk, fun a ha => byteAt_construct_after c font ha,
    hostLoadFrom_wf _ _ Memory.wf_nil, construct_eq c font⟩, fun font hfont => ?_⟩
  rw [State.construct, hfont]
  refine hostLoadFrom_unlisted rfl (by simp [defaultFont_length, fontBase, memTop]) fun k hk => ?_
  simp [Memory.unlisted, fontBase, hk]

theorem byteAt_reset (a : Nat) : State.reset.byteAt a = if a < 80 then defaultFont.getD a 0 else 0 := by
  show (if a ≤ memTop then Memory.unlisted a else 0) = _
  split_ifs with htop hfont hfont
  · rfl
  · exact Memory.unlisted_of_ge (not_lt.mp hfont)
  · exact absurd (hfont.le.trans (by decide)) htop
  · rfl

/-- Settles O20: every field is written out in the reset state, and memory reads as unlisted. -/
theorem resetStateIsAsSpecified : Obligations.ResetStateIsAsSpecified := by
  refine ⟨rfl, rfl, rfl, rfl, rfl, fun k => ?_, fun j => ?_, pixel_clear, rfl, rfl, rfl, byteAt_reset, rfl,
    Nat.succ_pos _, rfl, rfl, rfl⟩
  · simp [State.reg, State.reset, Vector.get_eq_getElem]
  · simp [State.stackAt, State.reset, Vector.get_eq_getElem]

end Sys2Proof.Machine
end

section
/-! PROOFS. Control transfer, 40_control.md: jumps, skips, and calls paired with returns (R130 to R142). -/

namespace Sys2Proof.Machine

/-! ### Widening and skipping (R14, R93, R139) -/

@[simp] theorem zextAddr_toNat (nnn : Addr) : (zextAddr nnn).toNat = nnn.toNat :=
  BitVec.toNat_setWidth_of_le (by decide)

@[simp] theorem zextByte_toNat (b : Byte) : (zextByte b).toNat = b.toNat :=
  BitVec.toNat_setWidth_of_le (by decide)

/-- A skip adds 2 to PC modulo 2^16 when its condition holds. -/
theorem skipIf_pc_toNat (c : Bool) (s : State) :
    (s.skipIf c).pc.toNat = if c then (s.pc.toNat + 2) % 0x10000 else s.pc.toNat := by
  cases c
  · rfl
  · exact BitVec.toNat_add s.pc 2

/-- A pair of skips on opposite conditions (SE and SNE, SKP and SKNP). -/
theorem skips_of_opposite_conditions {c : Bool} {p : Prop} [Decidable p] (hc : c = true ↔ p) (s : State) :
    (s.skipIf c).pc.toNat = (if p then (s.pc.toNat + 2) % 0x10000 else s.pc.toNat) ∧
    (s.skipIf !c).pc.toNat = (if p then s.pc.toNat else (s.pc.toNat + 2) % 0x10000) ∧
    FrameBut [.pc] s (s.skipIf c) ∧ FrameBut [.pc] s (s.skipIf !c) := by
  refine ⟨?_, ?_, frame_pc s _, frame_pc s _⟩
  · simp only [skipIf_pc_toNat, hc]
  · simp only [skipIf_pc_toNat, Bool.not_eq_true', ← Bool.not_eq_true, hc, ite_not]

/-- Two bytes are equal exactly as numbers are. -/
theorem beq_iff_toNat_eq (a b : Byte) : (a == b) = true ↔ a.toNat = b.toNat :=
  beq_iff_eq.trans BitVec.toNat_inj.symm

/-- Settles O25: SYS answers the state it is given. -/
theorem sysHasNoEffect : Obligations.SysHasNoEffect := fun _ _ => rfl

/-- Settles O27: PC is the widened address. -/
theorem jumpSetsPc : Obligations.JumpSetsPc := fun nnn s =>
  ⟨_, rfl, zextAddr_toNat nnn, frame_pc s _⟩

/-- Settles O29: two skips on opposite conditions. -/
theorem byteSkipsCompareWithKk : Obligations.ByteSkipsCompareWithKk := by
  intro x kk s
  exact ⟨_, _, rfl, rfl, skips_of_opposite_conditions (beq_iff_toNat_eq (s.reg x) kk) s⟩

/-- Settles O30: two skips on opposite conditions. -/
theorem registerSkipsCompareVxWithVy : Obligations.RegisterSkipsCompareVxWithVy := by
  intro x y s
  exact ⟨_, _, rfl, rfl, skips_of_opposite_conditions (beq_iff_toNat_eq (s.reg x) (s.reg y)) s⟩

/-- Settles O31: a byte and a 12-bit address cannot carry out of 16 bits. -/
theorem jumpV0AddsTheOffset : Obligations.JumpV0AddsTheOffset := by
  intro nnn s
  have hsum : (zextByte (s.reg 0) + zextAddr nnn).toNat = (s.reg 0).toNat + nnn.toNat := by
    rw [BitVec.toNat_add, zextByte_toNat, zextAddr_toNat]
    omega
  refine ⟨_, rfl, hsum, ?_, frame_pc s _⟩
  show (zextByte (s.reg 0) + zextAddr nnn).toNat ≤ 0x10FE
  omega

/-! ### The call stack (R28 to R32, R131, R133, R142) -/

/-- The entry after the one SP addresses: SP wraps at 256, a multiple of 16 (D4). -/
theorem stackSlot_add (sp : Byte) (n : Nat) : stackSlot (sp + BitVec.ofNat 8 n) = Fin.ofNat 16 (sp.toNat + n) := by
  apply Fin.ext
  simp only [stackSlot, Fin.ofNat, BitVec.toNat_add, BitVec.toNat_ofNat]
  omega

/-- Settles O26: PC takes the popped entry. -/
theorem returnPopsTheCallStack : Obligations.ReturnPopsTheCallStack := by
  intro s
  refine ⟨_, rfl, rfl, exec_sp (i := .ret) rfl, frame_popCall s _⟩

/-- Settles O28: a push, then a jump. -/
theorem callPushesAndJumps : Obligations.CallPushesAndJumps := by
  intro nnn s
  have hslot : Fin.ofNat 16 (s.sp.toNat + 1) = stackSlot (s.sp + 1) := (stackSlot_add s.sp 1).symm
  rw [hslot]
  exact ⟨_, rfl, zextAddr_toNat nnn, exec_sp (i := .call nnn) rfl, (stackAt_pushCall s s.pc _).trans (if_pos rfl),
    frame_pushCall s _ _⟩

/-! ### Nested calls and their returns (R142) -/

/-- RET, as far as the call stack is concerned. -/
theorem exists_exec_ret (s : State) :
    ∃ t, exec .ret s = .next t ∧ t.pc = s.stackAt (stackSlot s.sp) ∧ t.sp = s.sp - 1 ∧
      ∀ j, t.stackAt j = s.stackAt j :=
  ⟨_, rfl, rfl, rfl, fun _ => rfl⟩

/-- CALL, as far as the call stack is concerned. -/
theorem exists_exec_call (nnn : Addr) (s : State) :
    ∃ t, exec (.call nnn) s = .next t ∧ t.sp = s.sp + 1 ∧
      ∀ j, t.stackAt j = if j = stackSlot (s.sp + 1) then s.pc else s.stackAt j :=
  ⟨_, rfl, rfl, stackAt_pushCall s s.pc⟩

theorem add_one_add_ofNat (sp : Byte) (n : Nat) : sp + 1 + BitVec.ofNat 8 n = sp + BitVec.ofNat 8 (n + 1) := by
  rw [BitVec.ofNat_add, add_assoc, add_comm (1 : Byte)]
  rfl

theorem sub_one_sub_ofNat (sp : Byte) (n : Nat) : sp - 1 - BitVec.ofNat 8 n = sp - BitVec.ofNat 8 (n + 1) := by
  rw [BitVec.ofNat_add, sub_sub, add_comm]
  rfl

/-- Fewer than 16 entries on from an entry is another one (D4). -/
theorem stackSlot_add_ne (sp : Byte) {j k : Nat} (hjk : j < k) (hk : k < j + 16) :
    stackSlot (sp + BitVec.ofNat 8 j) ≠ stackSlot (sp + BitVec.ofNat 8 k) := by
  rw [stackSlot_add, stackSlot_add, Ne, Fin.ext_iff, Fin.val_ofNat, Fin.val_ofNat]
  omega

theorem returns_succ {n : Nat} {s t : State} (h : exec .ret s = .next t) : returns (n + 1) s = returns n t := by
  simp only [returns, h]

theorem nestedCalls_cons {ret : Word} {nnn : Addr} {cs : List (Word × Addr)} {s t : State}
    (h : exec (.call nnn) { s with pc := ret } = .next t) : nestedCalls ((ret, nnn) :: cs) s = nestedCalls cs t := by
  simp only [nestedCalls, h]

/-- The last of `n + 1` returns takes PC from the entry `n` below the one SP addresses at first. -/
theorem exists_returns (n : Nat) (s : State) :
    ∃ u, returns (n + 1) s = .next u ∧ u.pc = s.stackAt (stackSlot (s.sp - BitVec.ofNat 8 n)) ∧
      u.sp = s.sp - BitVec.ofNat 8 (n + 1) := by
  induction n generalizing s with
  | zero =>
    obtain ⟨t, ht, hpc, hsp, -⟩ := exists_exec_ret s
    exact ⟨t, returns_succ ht, by simpa using hpc, hsp⟩
  | succ n ih =>
    obtain ⟨t, ht, -, htsp, htstack⟩ := exists_exec_ret s
    obtain ⟨u, hu, hpc, hsp⟩ := ih t
    exact ⟨u, (returns_succ ht).trans hu, by rw [hpc, htstack, htsp, sub_one_sub_ofNat],
      by rw [hsp, htsp, sub_one_sub_ofNat]⟩

/-- At most 16 nested calls push into entries of their own, the `j`-th into the entry `j + 1` above SP, and into no
other. -/
theorem exists_nestedCalls (cs : List (Word × Addr)) (s : State) (hlen : cs.length ≤ 16) :
    ∃ t, nestedCalls cs s = .next t ∧ t.sp = s.sp + BitVec.ofNat 8 cs.length ∧
      (∀ j (hj : j < cs.length), t.stackAt (stackSlot (s.sp + BitVec.ofNat 8 (j + 1))) = cs[j].1) ∧
      ∀ i, (∀ j < cs.length, i ≠ stackSlot (s.sp + BitVec.ofNat 8 (j + 1))) → t.stackAt i = s.stackAt i := by
  induction cs generalizing s with
  | nil => exact ⟨s, rfl, by simp, by simp, fun _ _ => rfl⟩
  | cons c cs ih =>
    obtain ⟨ret, nnn⟩ := c
    rw [List.length_cons] at hlen
    obtain ⟨u, hu, husp, hustack⟩ := exists_exec_call nnn { s with pc := ret }
    obtain ⟨t, ht, hsp, hpushed, hother⟩ := ih u (by omega)
    simp only [husp, add_one_add_ofNat] at hsp hpushed hother
    refine ⟨t, (nestedCalls_cons hu).trans ht, hsp, fun j hj => ?_, fun i hi => ?_⟩
    · cases j with
      | zero =>
        rw [hother _ fun j hj => stackSlot_add_ne s.sp (by omega) (by omega), hustack]
        exact if_pos rfl
      | succ j => exact hpushed j (by simpa using hj)
    · rw [hother i fun j hj => hi (j + 1) (by simpa using hj), hustack]
      exact if_neg (hi 0 (by simp))

/-- Settles O32: the `k`-th return reads the entry of the `k`-th last call. -/
theorem callsAndReturnsPair : Obligations.CallsAndReturnsPair := by
  intro cs s hlen
  obtain ⟨t, ht, hsp, hpushed, -⟩ := exists_nestedCalls cs s hlen
  refine ⟨t, ht, fun k hk => ?_⟩
  obtain ⟨u, hu, hpc, husp⟩ := exists_returns k t
  have hback : ∀ m ≤ cs.length, t.sp - BitVec.ofNat 8 m = s.sp + BitVec.ofNat 8 (cs.length - m) := fun m hm => by
    have hsum : BitVec.ofNat 8 cs.length = BitVec.ofNat 8 (cs.length - m) + BitVec.ofNat 8 m := by
      rw [← BitVec.ofNat_add, Nat.sub_add_cancel hm]
    rw [hsp, hsum, ← add_assoc, add_sub_cancel_right]
  refine ⟨u, hu, ?_, ?_⟩
  · rw [hpc, hback k hk.le, ← hpushed (cs.length - 1 - k) (by omega)]
    congr 4
    omega
  · rw [husp, hback (k + 1) hk, Nat.sub_sub, Nat.add_comm k]

end Sys2Proof.Machine
end

section
/-! PROOFS. ALU and register operations, 41_alu.md (R150 to R163). -/

namespace Sys2Proof.Machine

/-! ### Assignments and logic (R152 to R157, R163) -/

/-- Settles O33: three writes of one register. -/
theorem loadsAndAddByteWriteOnlyVx : Obligations.LoadsAndAddByteWriteOnlyVx := by
  intro x y kk s
  refine ⟨_, _, _, rfl, rfl, rfl, reg_setReg_self s x _, reg_setReg_self s x _, ?_, frame_setReg s x _,
    frame_setReg s x _, frame_setReg s x _⟩
  rw [reg_setReg_self, BitVec.toNat_add]

/-- Settles O34: three writes of one register. -/
theorem logicOperationsActBitwise : Obligations.LogicOperationsActBitwise := by
  intro x y s
  refine ⟨_, _, _, rfl, rfl, rfl, fun k _ => ?_, fun k _ => ?_, fun k _ => ?_, frame_setReg s x _, frame_setReg s x _,
    frame_setReg s x _⟩
  · rw [reg_setReg_self, BitVec.getLsbD_or]
  · rw [reg_setReg_self, BitVec.getLsbD_and]
  · rw [reg_setReg_self, BitVec.getLsbD_xor]

/-- Settles O38: one write of one register. -/
theorem randomByteIsMasked : Obligations.RandomByteIsMasked := by
  intro x kk s
  refine ⟨_, rfl, fun k _ => ?_, frame_setReg s x _⟩
  rw [reg_setReg_self, BitVec.getLsbD_and]

/-! ### Flags (R36, R151, R158 to R162) -/

theorem flagByte_toNat (f : Bool) : (flagByte f).toNat = if f then 1 else 0 := by
  cases f <;> rfl

/-- A flag writer changes only Vx and VF: Vx is the result, and VF, where it is another register, the flag (R151). -/
theorem writeFlagThenResult_spec (s : State) (x : RegIdx) (f : Bool) (b : Byte) :
    (s.writeFlagThenResult x f b).reg x = b ∧
    (x ≠ VF → ((s.writeFlagThenResult x f b).reg VF).toNat = if f then 1 else 0) ∧
    FrameBut [.reg x, .reg VF] s (s.writeFlagThenResult x f b) :=
  ⟨reg_writeFlagThenResult_self s x f b,
    fun hx => by rw [reg_writeFlagThenResult_VF s hx, flagByte_toNat], frame_writeFlagThenResult s x f b⟩

/-- Settles O35: the flag is the carry. -/
theorem addSetsResultAndCarry : Obligations.AddSetsResultAndCarry := by
  intro x y s
  obtain ⟨hresult, hflag, hframe⟩ :=
    writeFlagThenResult_spec s x (carryFlag (s.reg x) (s.reg y)) (s.reg x + s.reg y)
  refine ⟨_, rfl, ?_, fun hx => ?_, hframe⟩
  · rw [hresult, BitVec.toNat_add]
  · simpa [carryFlag] using hflag hx

/-- A difference modulo 256, without truncation. -/
theorem toNat_sub_byte (a b : Byte) : (a - b).toNat = (a.toNat + 0x100 - b.toNat) % 0x100 := by
  rw [BitVec.toNat_sub]
  omega

/-- Settles O36: two flag writers, each with its own order of the operands. -/
theorem subtractSetsResultAndNoBorrow : Obligations.SubtractSetsResultAndNoBorrow := by
  intro x y s
  obtain ⟨hsub, hsubflag, hsubframe⟩ :=
    writeFlagThenResult_spec s x (noBorrowFlag (s.reg x) (s.reg y)) (s.reg x - s.reg y)
  obtain ⟨hsubn, hsubnflag, hsubnframe⟩ :=
    writeFlagThenResult_spec s x (noBorrowFlag (s.reg y) (s.reg x)) (s.reg y - s.reg x)
  refine ⟨_, _, rfl, rfl, ?_, ?_, fun hx => ⟨?_, ?_⟩, hsubframe, hsubnframe⟩
  · rw [hsub, toNat_sub_byte]
  · rw [hsubn, toNat_sub_byte]
  · simpa [noBorrowFlag] using hsubflag hx
  · simpa [noBorrowFlag] using hsubnflag hx

theorem shiftOperand_toNat (x y : RegIdx) (s : State) :
    (shiftOperand x y s).toNat =
      if s.config.shiftVariant = .ignoreVy then (s.reg x).toNat else (s.reg y).toNat := by
  unfold shiftOperand
  cases s.config.shiftVariant <;> rfl

/-- A bit of a byte as a number. -/
theorem ite_getLsbD_eq (a : Byte) (k : Nat) : (if a.getLsbD k then 1 else 0) = a.toNat / 2 ^ k % 2 := by
  rw [← BitVec.testBit_toNat, Nat.testBit_eq_decide_div_mod_eq]
  split <;> simp_all

theorem shiftedOutLow_eq (a : Byte) : (if shiftedOutLow a then 1 else 0) = a.toNat % 2 := by
  rw [shiftedOutLow, ite_getLsbD_eq, Nat.pow_zero, Nat.div_one]

/-- Bit 7 is the last: nothing stands above it. -/
theorem shiftedOutHigh_eq (a : Byte) : (if shiftedOutHigh a then 1 else 0) = a.toNat / 0x80 := by
  rw [shiftedOutHigh, ite_getLsbD_eq]
  omega

/-- Settles O37: two flag writers on one operand. -/
theorem shiftsMoveOneBitOut : Obligations.ShiftsMoveOneBitOut := by
  intro x y s
  obtain ⟨hshr, hshrflag, hshrframe⟩ :=
    writeFlagThenResult_spec s x (shiftedOutLow (shiftOperand x y s)) (shiftOperand x y s >>> 1)
  obtain ⟨hshl, hshlflag, hshlframe⟩ :=
    writeFlagThenResult_spec s x (shiftedOutHigh (shiftOperand x y s)) (shiftOperand x y s <<< 1)
  refine ⟨_, _, rfl, rfl, ?_⟩
  simp only [← shiftOperand_toNat x y s]
  refine ⟨?_, ?_, fun hx => ⟨?_, ?_⟩, hshrframe, hshlframe⟩
  · rw [hshr, BitVec.toNat_ushiftRight, Nat.shiftRight_one]
  · rw [hshl, BitVec.toNat_shiftLeft, Nat.shiftLeft_eq]
  · rw [← shiftedOutLow_eq]; exact hshrflag hx
  · rw [← shiftedOutHigh_eq]; exact hshlflag hx

end Sys2Proof.Machine
end

section
/-! PROOFS. Index register and memory transfers, 42_index_memory.md (R170 to R177). -/

namespace Sys2Proof.Machine

/-! ### The index register (R170 to R172) -/

/-- The low nibble of a byte. -/
theorem toNat_and_0F (b : Byte) : (b &&& 0x0F#8).toNat = b.toNat % 0x10 :=
  (BitVec.toNat_and b 0x0F#8).trans (Nat.and_two_pow_sub_one_eq_mod b.toNat 4)

theorem glyphAddr_toNat (b : Byte) : (glyphAddr b).toNat = 5 * (b.toNat % 0x10) := by
  rw [glyphAddr, toNat_and_0F, BitVec.toNat_ofNat, fontBase]
  omega

/-- Settles O39: two writes of I. -/
theorem loadIndexAndGlyphAddress : Obligations.LoadIndexAndGlyphAddress := fun nnn x s =>
  ⟨_, _, rfl, rfl, zextAddr_toNat nnn, glyphAddr_toNat (s.reg x), frame_i s _, frame_i s _⟩

/-- Settles O40: one write of I. -/
theorem addIndexWrapsWithNoFlag : Obligations.AddIndexWrapsWithNoFlag := by
  intro x s
  refine ⟨_, rfl, ?_, frame_i s _⟩
  rw [BitVec.toNat_add, zextByte_toNat]

/-! ### Stores (R173, R174) -/

/-- Settles O41: the digits, stored by one transfer of three writes. -/
theorem bcdStoresThreeDigits : Obligations.BcdStoresThreeDigits := by
  intro x s hm
  obtain ⟨t, ht⟩ := exists_exec_eq_next (.ldB x) s
  refine ⟨t, ht, fun k hk => ?_, ?_, frame_exec ht⟩
  · have hlt : k.val < (bcdDigits (s.reg x)).length := k.isLt
    rw [byteAt_of_exec_ldB hm ht hlt hk, ← map_toNat_bcdDigits]
    simp
  · cases ht
    rw [writeBytes_eq]
    rfl

/-- What LD [I], Vx stores: each register at its effective address, where that lies in memory (R174). -/
theorem byteAt_of_exec_storeRegs {x : RegIdx} {s t : State} (hm : s.mem.wf) (h : exec (.storeRegs x) s = .next t)
    {k : RegIdx} (hk : k ≤ x) (ha : effAddr s.i k ≤ memTop) : t.byteAt (effAddr s.i k) = s.reg k := by
  cases h
  have hlt : k.val < (regsUpTo x s).length := by
    rw [regsUpTo_length]
    exact Nat.lt_succ_of_le hk
  rw [byteAt_writeBytes s.i _ hm (by rw [regsUpTo_length]; omega) hlt ha, regsUpTo_getElem]

/-- Settles O43: one transfer of writes. -/
theorem storeRegistersWritesV0ToVx : Obligations.StoreRegistersWritesV0ToVx := by
  intro x s hm
  obtain ⟨t, ht⟩ := exists_exec_eq_next (.storeRegs x) s
  refine ⟨t, ht, fun k hk ha => byteAt_of_exec_storeRegs hm ht hk ha, ?_, frame_exec ht⟩
  cases ht
  rw [writeBytes_eq, regsUpTo_length]

/-! ### Loads (R175, R177) -/

/-- What LD Vx, [I] loads: the registers up to x take the bytes an access sees, the others stay (R175). -/
theorem reg_of_exec_loadRegs {x : RegIdx} {s t : State} (h : exec (.loadRegs x) s = .next t) (k : RegIdx) :
    t.reg k = if k ≤ x then s.byteAt (effAddr s.i k) else s.reg k := by
  cases h
  have hlen := length_readBytes s.i 0 (x.val + 1) s
  rw [reg_writeRegs _ _ _ (by omega)]
  by_cases hk : k ≤ x
  · have hlt : k.val < x.val + 1 := Nat.lt_succ_of_le hk
    rw [dif_pos (by omega), if_pos hk]
    simp [readBytes_eq, addrsFrom]
  · have hle : x.val < k.val := Fin.lt_def.mp (not_le.mp hk)
    rw [dif_neg (by omega), if_neg hk, readBytes_eq]
    rfl

/-- Settles O44: one transfer of reads, then the registers written in turn. -/
theorem loadRegistersReadsV0ToVx : Obligations.LoadRegistersReadsV0ToVx := by
  intro x s
  obtain ⟨t, ht⟩ := exists_exec_eq_next (.loadRegs x) s
  refine ⟨t, ht, fun k hk => ?_, ?_, frame_exec ht⟩
  · rw [reg_of_exec_loadRegs ht, if_pos hk]
    rfl
  · cases ht
    rw [readBytes_eq, writeRegs_eq]

/-- Settles O45: I does not change between the two transfers, so they meet at the same addresses. -/
theorem storeThenLoadGivesTheRegistersBack : Obligations.StoreThenLoadGivesTheRegistersBack := by
  intro x s t hm ht
  have hi : t.i = s.i := frame_exec ht .i (by simp [footprint])
  obtain ⟨u, hu⟩ := exists_exec_eq_next (.loadRegs x) { t with v := Vector.replicate 16 0 }
  refine ⟨u, hu, fun k => ?_⟩
  have hload := reg_of_exec_loadRegs hu k
  by_cases hk : k ≤ x
  · have hbyte : u.reg k = t.byteAt (effAddr s.i k) := by
      rw [hload, if_pos hk, ← hi]
      rfl
    by_cases ha : effAddr s.i k ≤ 0xFFF
    · rw [hbyte, if_pos ⟨hk, ha⟩, byteAt_of_exec_storeRegs hm ht hk ha]
    · rw [hbyte, if_neg fun h => ha h.2]
      exact if_neg ha
  · rw [hload, if_neg hk, if_neg fun h => hk h.1]
    simp [State.reg, Vector.get_eq_getElem]

end Sys2Proof.Machine
end

section
/-! PROOFS. The display, 43_display.md: CLS, the whole effect of DRW, and drawing twice (R190 to R196). -/

namespace Sys2Proof.Machine

/-- Settles O46: the clear framebuffer has no lit pixel. -/
theorem clearScreenMarksDirty : Obligations.ClearScreenMarksDirty := fun s =>
  ⟨_, rfl, pixel_clear, rfl, frame_cls s⟩

/-! ### Which sprites cover a pixel (R191, R195) -/

/-- A byte is not 0 exactly when one of its 8 bits is set. -/
theorem ne_zero_iff_exists_bit (b : Byte) : b ≠ 0 ↔ ∃ col < 8, b.getLsbD (7 - col) = true := by
  constructor
  · intro hb
    by_contra hno
    push Not at hno
    refine hb (BitVec.eq_of_getLsbD_eq fun i hi => ?_)
    have := hno (7 - i) (by omega)
    rw [show 7 - (7 - i) = i by omega] at this
    simpa using this
  · rintro ⟨col, -, hcol⟩ rfl
    simp at hcol

/-- Some pixel is covered exactly when some row of the sprite is not blank. -/
theorem exists_spriteCovers_iff {cx cy : Byte} {sprite : List Byte} (h : sprite.length ≤ 32) :
    (∃ px py, spriteCovers cx cy sprite px py = true) ↔ sprite.any (· != 0) = true := by
  simp only [← mem_toggles_iff_covers h, List.any_eq_true, bne_iff_ne, ne_zero_iff_exists_bit, mem_toggles]
  constructor
  · rintro ⟨px, py, r, col, hr, hcol, hbit, -⟩
    exact ⟨sprite[r], List.getElem_mem hr, col, hcol, by simpa [hr] using hbit⟩
  · rintro ⟨b, hb, col, hcol, hbit⟩
    obtain ⟨r, hr, rfl⟩ := List.mem_iff_getElem.mp hb
    exact ⟨_, _, r, col, hr, hcol, by simpa [hr] using hbit, rfl⟩

/-! ### The whole effect of DRW (R191, R195, R196) -/

/-- A sprite has fewer rows than the screen, so no pixel is toggled twice. -/
theorem length_spriteAt_le (s : State) (n : Nibble) : (s.spriteAt n).length ≤ 32 :=
  (length_spriteAt_lt s n).le.trans (by decide)

theorem flagByte_eq_zero_or_one (f : Bool) : flagByte f = 0 ∨ flagByte f = 1 := by
  cases f <;> simp [flagByte]

theorem flagByte_eq_one_iff (f : Bool) : flagByte f = 1 ↔ f = true := by
  cases f <;> simp [flagByte]

/-- VF after DRW is the collision flag: some covered pixel was lit. -/
theorem reg_VF_of_exec_drw {x y : RegIdx} {n : Nibble} {s t : State} (h : exec (.drw x y n) s = .next t) :
    (t.reg VF = 0 ∨ t.reg VF = 1) ∧
    (t.reg VF = 1 ↔
      ∃ px py, spriteCovers (s.reg x) (s.reg y) (s.spriteAt n) px py = true ∧ s.fb.pixel px py = true) := by
  cases h
  obtain ⟨-, hcollide, -⟩ := drawSprite_spec (s.reg x) (s.reg y) (s.spriteAt n) s.fb (length_spriteAt_le s n)
  rw [reg_setReg_self, readBytes_eq]
  exact ⟨flagByte_eq_zero_or_one _, (flagByte_eq_one_iff _).trans hcollide⟩

/-- `dirty` after DRW: some row of the sprite was not blank, or it was set before. -/
theorem dirty_of_exec_drw {x y : RegIdx} {n : Nibble} {s t : State} (h : exec (.drw x y n) s = .next t) :
    t.dirty = (s.dirty || (s.spriteAt n).any (· != 0)) := by
  cases h
  obtain ⟨-, -, hchanged⟩ := drawSprite_spec (s.reg x) (s.reg y) (s.spriteAt n) s.fb (length_spriteAt_le s n)
  rw [readBytes_eq]
  exact congrArg (s.dirty || ·)
    (Bool.eq_iff_iff.mpr (hchanged.trans (exists_spriteCovers_iff (length_spriteAt_le s n))))

/-- Settles O47: pixels, flag, `dirty`, events and frame of one draw. -/
theorem drawXorsTheSprite : Obligations.DrawXorsTheSprite := by
  intro x y n s
  obtain ⟨t, ht⟩ := exists_exec_eq_next (.drw x y n) s
  obtain ⟨hflag, hcollide⟩ := reg_VF_of_exec_drw ht
  refine ⟨t, ht, pixel_of_exec_drw ht, hflag, hcollide, dirty_of_exec_drw ht, ?_, frame_exec ht⟩
  cases ht
  rw [readBytes_eq]
  rfl

/-- A draw changes neither `I` nor memory, so the next draw reads the same sprite (R194, D15). -/
theorem spriteAt_of_exec_drw {x y : RegIdx} {n : Nibble} {s t : State} (h : exec (.drw x y n) s = .next t) :
    t.spriteAt n = s.spriteAt n := by
  refine spriteAt_congr (frame_exec h .i (by simp [footprint])) ?_ n
  cases h
  rw [readBytes_eq]
  rfl

/-- Settles O48: the second draw covers the same pixels, so it inverts them back, and finds lit what was unlit. -/
theorem drawingTwiceRestoresTheScreen : Obligations.DrawingTwiceRestoresTheScreen := by
  intro x y n s t ht hx hy
  obtain ⟨u, hu⟩ := exists_exec_eq_next (.drw x y n) t
  obtain ⟨-, hcollide⟩ := reg_VF_of_exec_drw hu
  rw [hx, hy, spriteAt_of_exec_drw ht] at hcollide
  refine ⟨u, hu, Framebuffer.ext_pixel fun px py => ?_, hcollide.trans ?_⟩
  · rw [pixel_of_exec_drw hu, pixel_of_exec_drw ht, hx, hy, spriteAt_of_exec_drw ht, Bool.xor_assoc, Bool.xor_self,
      Bool.xor_false]
  · refine exists_congr fun px => exists_congr fun py => and_congr_right fun hcov => ?_
    rw [pixel_of_exec_drw ht, hcov, Bool.xor_true, Bool.not_eq_true']

end Sys2Proof.Machine
end

section
/-! PROOFS. Keys and timers: 44_input_timer.md (R210 to R217) and the divider and 60 Hz event of 60_exceptions.md
(R241, R242). -/

namespace Sys2Proof.Machine

/-! ### Keys (R210 to R214) -/

/-- Settles O50: two skips on opposite conditions. -/
theorem keySkipsTestTheNamedKey : Obligations.KeySkipsTestTheNamedKey := by
  intro x s
  have hkey : keyPressed (s.reg x) s = true ↔ s.input.keyDown.getLsbD ((s.reg x).toNat % 0x10) = true := by
    rw [keyPressed, keyNumber, toNat_and_0F]
  exact ⟨_, _, rfl, rfl, skips_of_opposite_conditions hkey s⟩

theorem key_toNat (inp : Input) : inp.key.toNat = inp.keyLast % 0x10 := by
  have hmask : inp.keyLast &&& 0xF = inp.keyLast % 0x10 := Nat.and_two_pow_sub_one_eq_mod inp.keyLast 4
  rw [Input.key, hmask, BitVec.toNat_ofNat]
  omega

theorem anyKey_eq_true_iff (inp : Input) : inp.anyKey = true ↔ inp.keyDown ≠ 0 := bne_iff_ne

/-- Settles O51: by the two cases of the snapshot. -/
theorem loadKeyStoresOrWaits : Obligations.LoadKeyStoresOrWaits := by
  intro x s
  refine ⟨_, rfl, ?_⟩
  split
  next hk =>
    rw [if_neg fun h => (anyKey_eq_true_iff _).mp h hk]
    exact ⟨rfl, frame_waitKey s _⟩
  next hk =>
    rw [if_pos ((anyKey_eq_true_iff _).mpr hk), reg_setReg_self]
    exact ⟨key_toNat s.input, frame_setReg s x _⟩

theorem frame_storeKey (x : RegIdx) (s : State) : FrameBut [.reg x, .waitKey] s (s.storeKey x) := by
  intro p hp
  cases p with
  | reg k => exact reg_setReg_ne s (fun h => hp (by simp [h])) _
  | waitKey => exact absurd (by simp) hp
  | _ => rfl

theorem reg_storeKey_toNat (x : RegIdx) (s : State) : ((s.storeKey x).reg x).toNat = s.input.keyLast % 0x10 :=
  (congrArg BitVec.toNat (reg_setReg_self s x s.input.key)).trans (key_toNat s.input)

/-- Settles O52: by the two cases of the snapshot. -/
theorem keyWaitPollsUntilAKeyIsDown : Obligations.KeyWaitPollsUntilAKeyIsDown := by
  intro s x hw
  rw [step_of_waitKey hw, pollKey]
  split
  next hk =>
    rw [if_neg fun h => (anyKey_eq_true_iff _).mp h hk]
    exact ⟨_, rfl, frame_useInput s⟩
  next hk =>
    rw [if_pos ((anyKey_eq_true_iff _).mpr hk)]
    exact ⟨_, rfl, reg_storeKey_toNat x s, rfl, frame_storeKey x s⟩

/-! ### Timer transfers (R215 to R217) -/

/-- Settles O53: a write of a register, and a write of DT. -/
theorem delayTimerTransfers : Obligations.DelayTimerTransfers := fun x s =>
  ⟨_, _, rfl, rfl, reg_setReg_self s x _, rfl, frame_setReg s x _, frame_dt s _⟩

/-- Settles O55: a write of ST. -/
theorem soundTimerWriteIsSilent : Obligations.SoundTimerWriteIsSilent := fun _ s =>
  ⟨_, rfl, rfl, frame_st s _⟩

/-! ### The 60 Hz event and the divider (R241, R242) -/

/-- Settles O56: the two countdowns are truncated subtractions, and the tone goes by ST's number. -/
theorem sixtyHertzEventEffect : Obligations.SixtyHertzEventEffect := by
  intro s
  refine ⟨rfl, toNat_decay s.dt, toNat_decay s.st, ?_, frame_timerEvent s⟩
  rw [timerEvent_events, toneEvents_eq]
  simp only [← BitVec.toNat_inj]
  rfl

/-- Settles O60: by the two cases of the count. -/
theorem endTickRunsTheSixtyHertzEvent : Obligations.EndTickRunsTheSixtyHertzEvent := by
  intro s
  split
  next h => exact endTick_of_fires s h
  next h => exact endTick_of_not_fires s h

/-- A tick that ends with a 60 Hz event takes 1 from DT after execute, and leaves the registers as execute left them. -/
theorem firing_tick {s t u : State} {i : Instr} (hw : s.waitKey = none) (hfire : tickFires s)
    (hd : decode s.fetchWord = .ok i) (hu : exec i s.afterFetch = .next u) (huw : u.waitKey = none)
    (h : step s = .next t) : t.dt.toNat = u.dt.toNat - 1 ∧ ∀ k, t.reg k = u.reg k := by
  have hufire : tickFires u := by
    rw [tickFires, exec_tickCount hu, exec_config hu, afterFetch_tickCount, afterFetch_config]
    exact hfire
  have ht : t = finishTick u := Host.Outcome.next.inj (h.symm.trans (step_of_decode_ok hw hd hu))
  rw [ht, finishTick_eq, if_pos huw, endTick_of_fires u hufire]
  exact ⟨toNat_decay u.dt, fun _ => rfl⟩

@[simp] theorem afterFetch_reg (s : State) (k : RegIdx) : s.afterFetch.reg k = s.reg k := by
  rw [afterFetch_eq]
  rfl

@[simp] theorem afterFetch_dt (s : State) : s.afterFetch.dt = s.dt := by rw [afterFetch_eq]

/-- Settles O54: neither transfer begins a key wait, so the tick ends with the event after it. -/
theorem timerTransfersPrecedeTheTickEnd : Obligations.TimerTransfersPrecedeTheTickEnd := by
  intro x s t hw hfire h
  have huw : s.afterFetch.waitKey = none := (afterFetch_waitKey s).trans hw
  refine ⟨fun hd => ?_, fun hd => ?_⟩
  · obtain ⟨hdt, -⟩ := firing_tick hw hfire hd rfl huw h
    rw [hdt, afterFetch_reg]
  · obtain ⟨hdt, hreg⟩ := firing_tick hw hfire hd rfl huw h
    rw [hdt, hreg, reg_setReg_self, setReg_dt, afterFetch_dt]
    exact ⟨rfl, rfl⟩

/-! ### The divider (R10, R241) -/

theorem timerPeriod_bounds (c : Config) :
    60 * timerPeriod c ≥ c.cpuFreqHz ∧ 60 * timerPeriod c < c.cpuFreqHz + 60 := by
  unfold timerPeriod
  omega

theorem endTick_tickCount {s : State} (h : s.tickCount < timerPeriod s.config) :
    (endTick s).tickCount = (s.tickCount + 1) % timerPeriod s.config := by
  by_cases hf : tickFires s
  · rw [endTick_of_fires s hf, show s.tickCount + 1 = timerPeriod s.config from hf, Nat.mod_self]
  · rw [endTick_of_not_fires s hf, Nat.mod_eq_of_lt]
    unfold tickFires at hf
    omega

theorem iterate_endTick_tickCount {s : State} (h : s.tickCount < timerPeriod s.config) (n : Nat) :
    (endTick^[n] s).tickCount = (s.tickCount + n) % timerPeriod s.config := by
  induction n generalizing s with
  | zero => exact (Nat.mod_eq_of_lt h).symm
  | succ n ih =>
    rw [Function.iterate_succ_apply, ih (endTick_tickCount_lt h), endTick_tickCount h, endTick_config,
      Nat.mod_add_mod, Nat.add_assoc, Nat.add_comm 1]

/-- Ticks that do not reach TIMER_PERIOD are only counted. -/
theorem iterate_endTick_of_lt {s : State} {n : Nat} (h : s.tickCount + n < timerPeriod s.config) :
    endTick^[n] s = { s with tickCount := s.tickCount + n } := by
  induction n with
  | zero => rfl
  | succ n ih =>
    have hnot : ¬ tickFires { s with tickCount := s.tickCount + n } := Nat.ne_of_lt h
    rw [Function.iterate_succ_apply', ih (by omega), endTick_of_not_fires _ hnot]
    rfl

/-- Of TIMER_PERIOD ticks in turn one runs the 60 Hz event; those before it and those after it only count. -/
theorem iterate_endTick_timerPeriod {s : State} (h : s.tickCount < timerPeriod s.config) :
    (endTick^[timerPeriod s.config] s).dt = decay s.dt := by
  obtain ⟨n, hn⟩ : ∃ n, timerPeriod s.config = s.tickCount + 1 + n := Nat.exists_eq_add_of_le h
  have hfire : tickFires { s with tickCount := s.tickCount + n } := by
    show s.tickCount + n + 1 = timerPeriod s.config
    omega
  have hbefore : endTick^[n] s = { s with tickCount := s.tickCount + n } := iterate_endTick_of_lt (by omega)
  rw [hn, Function.iterate_add_apply, hbefore, Function.iterate_succ_apply, endTick_of_fires _ hfire,
    iterate_endTick_of_lt]
  · rfl
  · show 0 + s.tickCount < timerPeriod s.config
    omega

/-- Settles O57: the count goes up modulo the period, and a whole period of ticks has one 60 Hz event. -/
theorem dividerCountsTicks : Obligations.DividerCountsTicks := by
  rintro s ⟨-, -, htick⟩
  obtain ⟨hge, hlt⟩ := timerPeriod_bounds s.config
  exact ⟨hge, hlt, iterate_endTick_tickCount htick, by rw [iterate_endTick_timerPeriod htick, toNat_decay]⟩

end Sys2Proof.Machine
end
